-- ==== Sys2Proof/Word.lean ====
section
/-! DEFINITION. The bytes and words of the Modbus RTU server block (00_scope.md R12): every value is unsigned. -/

namespace Sys2Proof

/-- A byte of the line, of a frame or of a PDU (R12). -/
abbrev Byte := BitVec 8

/-- A 16-bit word: an address, a quantity, a register value, the CRC register (R12). -/
abbrev Word := BitVec 16

end Sys2Proof
end

