-- ==== Sys2Proof/Config.lean ====
section
/-! DEFINITION. The static configuration `CFG` and the constants of the block (00_scope.md R6 to R11, 10_state.md R34). -/

namespace Sys2Proof

/-- The four bank kinds (R14): coils, discrete inputs, input registers, holding registers. -/
inductive Kind where
  | co
  | di
  | ir
  | hr
  deriving DecidableEq, Repr

/-- Single-slave or multi-slave configuration (R7). -/
inductive SlaveMode where
  | single
  | multi
  deriving DecidableEq, Repr

/-- `CFG.PRESENT[s][k]`, `CFG.LEN[s][k]` and `CFG.INIT[s][k]` of one bank (R6).
The element type `α` is `Bool` for the bit kinds and `Word` for the word kinds. -/
structure BankConfig (α : Type) where
  present : Bool
  len : Nat
  init : List α
  deriving DecidableEq, Repr

/-- The configuration of one slave context: `CFG.UNIT_ID[s]` (R7) and its four banks (R6). -/
structure SlaveConfig where
  unitId : Byte
  co : BankConfig Bool
  di : BankConfig Bool
  ir : BankConfig Word
  hr : BankConfig Word
  deriving DecidableEq, Repr

/-- `CFG`: `SLAVE_MODE`, the slave contexts in order of their index, and `T35_TICKS` (R7, R8). -/
structure Config where
  mode : SlaveMode
  slaves : List SlaveConfig
  t35Ticks : Nat
  deriving DecidableEq, Repr

/-- `RX_MAX` (R9). -/
def rxMax : Nat := 256

/-- `TX_MAX` (R9). -/
def txMax : Nat := 256

/-- `MAX_RD_BITS` (R10). -/
def maxRdBits : Nat := 2000

/-- `MAX_RD_REGS` (R10). -/
def maxRdRegs : Nat := 125

/-- `MAX_WR_BITS` (R10). -/
def maxWrBits : Nat := 1968

/-- `MAX_WR_REGS` (R10). -/
def maxWrRegs : Nat := 123

/-- The configuration of a bank that a slave context does not have (R6, R11: length 0). -/
def BankConfig.absent (α : Type) : BankConfig α := { present := false, len := 0, init := [] }

/-- The configuration of a bank that holds the given initial contents (R6). -/
def BankConfig.holding {α : Type} (xs : List α) : BankConfig α :=
  { present := true, len := xs.length, init := xs }

/-- `CFG.NSLAVES` (R7). -/
def Config.nslaves (cfg : Config) : Nat := cfg.slaves.length

/-- `CFG.PRESENT[s][k]` for the slave of this configuration (R6). -/
def SlaveConfig.present (c : SlaveConfig) : Kind → Bool
  | .co => c.co.present
  | .di => c.di.present
  | .ir => c.ir.present
  | .hr => c.hr.present

/-- `CFG.LEN[s][k]` for the slave of this configuration (R6). -/
def SlaveConfig.len (c : SlaveConfig) : Kind → Nat
  | .co => c.co.len
  | .di => c.di.len
  | .ir => c.ir.len
  | .hr => c.hr.len

/-- `CFG.PRESENT[s][k]` (R6); no bank is present for an index at or above `NSLAVES`. -/
def Config.present (cfg : Config) (sl : Nat) (k : Kind) : Bool :=
  match cfg.slaves[sl]? with
  | some c => c.present k
  | none => false

/-- `CFG.LEN[s][k]` (R6); 0 for an index at or above `NSLAVES`. -/
def Config.len (cfg : Config) (sl : Nat) (k : Kind) : Nat :=
  match cfg.slaves[sl]? with
  | some c => c.len k
  | none => 0

/-- Configuration `T1` of 95_test_vectors.md: single mode, unit identifier 1, one tick of silence, all four banks.
DESIGN CHOICE, log entry 2 (unsafe): the spec gives no default configuration; the model's reset state needs one. -/
def Config.reference : Config :=
  { mode := .single
    slaves := [
      { unitId := 1#8
        co := .holding [true, false, true, true, false, false, true, true,
          true, true, false, true, false, true, true, false, true, false, false]
        di := .holding [false, false, true, false, true, true, false, true, false, true]
        ir := .holding [0x000A#16, 0x1234#16, 0xFFFF#16, 0x0000#16]
        hr := .holding (List.replicate 100 0x0000#16) }]
    t35Ticks := 1 }

end Sys2Proof
end

