-- ==== Sys2Proof/Syntax.lean ====
section
/-! DEFINITION. The instructions of the block: the eight Modbus requests in decoded form (30_encoding.md R83),
one constructor per row of spec/opcode_table.json. -/

namespace Sys2Proof

/-- A decoded request (R83). A multiple write carries its values; its quantity is their number. -/
inductive Instr where
  | rdco (addr qty : Word)
  | rddi (addr qty : Word)
  | rdhr (addr qty : Word)
  | rdir (addr qty : Word)
  | wrco (addr : Word) (bit : Bool)
  | wrhr (addr val : Word)
  | wrmco (addr : Word) (bits : List Bool)
  | wrmhr (addr : Word) (vals : List Word)
  deriving DecidableEq, Repr

end Sys2Proof
end

