-- ==== Sys2Proof/WellFormed.lean ====
section
/-! DEFINITION. Well-formed requests (30_encoding.md R83: those the encoder is defined on) and well-formed
configurations (00_scope.md R11). -/

namespace Sys2Proof

/-- The requests on which `encode_req` is defined (R83): the quantity of a multiple write is at least 1 and its byte
count fits one byte (1 to 2040 coils, 1 to 127 registers). The tighter limits of R10 belong to the request rules. -/
def Instr.wf : Instr → Bool
  | .rdco _ _ => true
  | .rddi _ _ => true
  | .rdhr _ _ => true
  | .rdir _ _ => true
  | .wrco _ _ => true
  | .wrhr _ _ => true
  | .wrmco _ bits => decide (1 ≤ bits.length) && decide (bits.length ≤ 2040)
  | .wrmhr _ vals => decide (1 ≤ vals.length) && decide (vals.length ≤ 127)

/-- R11 for one bank: `LEN` at most 65536, `INIT` of that length, and length 0 when not present. That every element
is in range for its kind holds by its type. -/
def BankConfig.wf {α : Type} (b : BankConfig α) : Bool :=
  decide (b.len ≤ 65536) && decide (b.init.length = b.len) && (b.present || decide (b.len = 0))

/-- R11 for the four banks of one slave. -/
def SlaveConfig.wf (c : SlaveConfig) : Bool :=
  c.co.wf && c.di.wf && c.ir.wf && c.hr.wf

/-- R11, the clauses on the slave mode: exactly one slave in single mode, pairwise different unit identifiers in
multi mode. -/
def Config.modeWf (cfg : Config) : Bool :=
  match cfg.mode with
  | .single => decide (cfg.slaves.length = 1)
  | .multi => decide (cfg.slaves.map SlaveConfig.unitId).Nodup

/-- A well-formed configuration (R11). -/
def Config.wf (cfg : Config) : Bool :=
  decide (1 ≤ cfg.slaves.length) && cfg.modeWf && decide (1 ≤ cfg.t35Ticks) && cfg.slaves.all SlaveConfig.wf

end Sys2Proof
end

