-- ==== Sys2Proof/Decode.lean ====
section
/-! DEFINITION. PDU decoding, total on any bytes and rejecting by exception code, and after it the encoder
(30_encoding.md R72, R73, R76 to R83), with the byte-order and bit-packing helpers both use (20_memory.md R51,
42_read_requests.md R155, R156, 43_write_requests.md R175, R176). -/

namespace Sys2Proof

/-- The exception codes (00_scope.md R13, R14). -/
inductive ExcCode where
  | illegalFunction
  | illegalDataAddress
  | illegalDataValue
  | serverDeviceFailure
  deriving DecidableEq, Repr

/-- The one-byte exception code sent on the line (60_exceptions.md R200). -/
def ExcCode.code : ExcCode → Byte
  | .illegalFunction => 1#8
  | .illegalDataAddress => 2#8
  | .illegalDataValue => 3#8
  | .serverDeviceFailure => 4#8

/-- `be16(h, l) = 256*h + l` (R12). -/
def be16 (h l : Byte) : Word := h ++ l

/-- `hi8(w) = w[15:8]` (R12). -/
def hi8 (w : Word) : Byte := w.extractLsb' 8 8

/-- `lo8(w) = w[7:0]` (R12). -/
def lo8 (w : Word) : Byte := w.extractLsb' 0 8

/-- `ceil8(q) = (q + 7) div 8` (R12). -/
def ceil8 (q : Nat) : Nat := (q + 7) / 8

/-- The number whose binary digits, least significant first, are the given bits. -/
def natOfBits : List Bool → Nat
  | [] => 0
  | b :: bs => b.toNat + 2 * natOfBits bs

/-- Up to eight bits in one byte, the first in bit 0, the unused high bits 0 (R155). -/
def packByte (bits : List Bool) : Byte := BitVec.ofNat 8 (natOfBits (bits.take 8))

/-- `pack_bits(v)` (R155): `ceil8` of the length bytes, byte `j` made of bits `8*j` to `8*j + 7`. -/
def packBits (v : List Bool) : List Byte :=
  (List.range (ceil8 v.length)).map fun j => packByte (v.drop (8 * j))

/-- `unpack_bits(d, q)` (R175): bit `i` is `(d[i div 8] >> (i mod 8)) AND 1`. -/
def unpackBits (d : List Byte) (q : Nat) : List Bool :=
  (List.range q).map fun i => (d.getD (i / 8) 0#8).getLsbD (i % 8)

/-- `pack_words(v)` (R156): each word high byte first. -/
def packWords (v : List Word) : List Byte := v.flatMap fun w => [hi8 w, lo8 w]

/-- `unpack_words(d, q)` (R176): word `i` is `be16(d[2*i], d[2*i + 1])`. -/
def unpackWords (d : List Byte) (q : Nat) : List Word :=
  (List.range q).map fun i => be16 (d.getD (2 * i) 0#8) (d.getD (2 * i + 1) 0#8)

/-- The value field of `WRCO` that stands for a bit (R77). -/
def coilValue (bit : Bool) : Word := if bit then 0xFF00#16 else 0x0000#16

/-- The bit a value field of `WRCO` stands for, if it is one of the two legal ones (R77). -/
def coilBit? (val : Word) : Option Bool :=
  if val = 0xFF00#16 then some true else if val = 0x0000#16 then some false else none

/-- Formats `RQ_A` and `RQ_B` after the function code (R72): exactly four bytes, two 16-bit fields high byte first.
Any other length raises `IllegalDataValue` (R78). -/
def decodeTwoFields (payload : List Byte) : Except ExcCode (Word × Word) :=
  match payload with
  | [b1, b2, b3, b4] => .ok (be16 b1 b2, be16 b3 b4)
  | _ => .error .illegalDataValue

/-- Format `RQ_C` after the function code (R72): address, quantity, byte count and data. The byte count must be the
one the quantity calls for and the data must be that many bytes (R78); else `IllegalDataValue`. -/
def decodeBatch (byteCount : Nat → Nat) (payload : List Byte) : Except ExcCode (Word × Nat × List Byte) :=
  match payload with
  | b1 :: b2 :: b3 :: b4 :: bc :: data =>
    if bc.toNat = byteCount (be16 b3 b4).toNat ∧ data.length = bc.toNat then
      .ok (be16 b1 b2, (be16 b3 b4).toNat, data)
    else .error .illegalDataValue
  | _ => .error .illegalDataValue

/-- A read request (format `RQ_A`). -/
def decodeRead (mk : Word → Word → Instr) (payload : List Byte) : Except ExcCode Instr :=
  match decodeTwoFields payload with
  | .ok (addr, qty) => .ok (mk addr qty)
  | .error e => .error e

/-- `WRCO` (format `RQ_B`): the value field must be one of the two legal encodings (R77). -/
def decodeWriteCoil (payload : List Byte) : Except ExcCode Instr :=
  match decodeTwoFields payload with
  | .ok (addr, val) =>
    match coilBit? val with
    | some bit => .ok (.wrco addr bit)
    | none => .error .illegalDataValue
  | .error e => .error e

/-- `WRHR` (format `RQ_B`): every value is legal (R77). -/
def decodeWriteReg (payload : List Byte) : Except ExcCode Instr :=
  match decodeTwoFields payload with
  | .ok (addr, val) => .ok (.wrhr addr val)
  | .error e => .error e

/-- `WRMCO` (format `RQ_C`, byte count `ceil8(qty)`); padding bits are ignored (R79). -/
def decodeWriteCoils (payload : List Byte) : Except ExcCode Instr :=
  match decodeBatch ceil8 payload with
  | .ok (addr, qty, data) => .ok (.wrmco addr (unpackBits data qty))
  | .error e => .error e

/-- `WRMHR` (format `RQ_C`, byte count `2*qty`). -/
def decodeWriteRegs (payload : List Byte) : Except ExcCode Instr :=
  match decodeBatch (2 * ·) payload with
  | .ok (addr, qty, data) => .ok (.wrmhr addr (unpackWords data qty))
  | .error e => .error e

/-- The function code selects the request format and kind (R76); any other yields `IllegalFunction`, whatever follows it
(R80). -/
def decodePayload (fc : Byte) (payload : List Byte) : Except ExcCode Instr :=
  match fc.toNat with
  | 0x01 => decodeRead .rdco payload
  | 0x02 => decodeRead .rddi payload
  | 0x03 => decodeRead .rdhr payload
  | 0x04 => decodeRead .rdir payload
  | 0x05 => decodeWriteCoil payload
  | 0x06 => decodeWriteReg payload
  | 0x0F => decodeWriteCoils payload
  | 0x10 => decodeWriteRegs payload
  | _ => .error .illegalFunction

/-- `decode_req` (R83). The quantity limits are applied by the request rules, not here (R83), so a multiple write of
quantity 0 decodes (DEDUCED, log entry 7). A PDU of no byte has no function code and is rejected as one
(DESIGN CHOICE, log entry 8). -/
def decode (pdu : List Byte) : Except ExcCode Instr :=
  match pdu with
  | [] => .error .illegalFunction
  | fc :: payload => decodePayload fc payload

/-- The function code of a request (R76). -/
def Instr.fc : Instr → Byte
  | .rdco _ _ => 0x01#8
  | .rddi _ _ => 0x02#8
  | .rdhr _ _ => 0x03#8
  | .rdir _ _ => 0x04#8
  | .wrco _ _ => 0x05#8
  | .wrhr _ _ => 0x06#8
  | .wrmco _ _ => 0x0F#8
  | .wrmhr _ _ => 0x10#8

/-- A PDU of a function code and two 16-bit fields, high byte first (R72, R73; also the layouts of R74). -/
def twoFieldPdu (fc : Byte) (a b : Word) : List Byte := [fc, hi8 a, lo8 a, hi8 b, lo8 b]

/-- `encode_req` (R83), which the spec defines on the requests of `Instr.wf` only. Outside them the model's `encode` is
total by its own choice (DESIGN CHOICE, log entry 23): the quantity field is the number of values modulo 65536, the
byte-count field modulo 256, and all the data follow; no values give a PDU of six bytes with both fields 0. -/
def encode : Instr → List Byte
  | .rdco addr qty => twoFieldPdu 0x01#8 addr qty
  | .rddi addr qty => twoFieldPdu 0x02#8 addr qty
  | .rdhr addr qty => twoFieldPdu 0x03#8 addr qty
  | .rdir addr qty => twoFieldPdu 0x04#8 addr qty
  | .wrco addr bit => twoFieldPdu 0x05#8 addr (coilValue bit)
  | .wrhr addr val => twoFieldPdu 0x06#8 addr val
  | .wrmco addr bits =>
    twoFieldPdu 0x0F#8 addr (BitVec.ofNat 16 bits.length) ++ BitVec.ofNat 8 (ceil8 bits.length) :: packBits bits
  | .wrmhr addr vals =>
    twoFieldPdu 0x10#8 addr (BitVec.ofNat 16 vals.length) ++ BitVec.ofNat 8 (2 * vals.length) :: packWords vals

/-- How many bytes the PDU has whose bits are `w`, numbered as spec/opcode_table.json numbers them: `6 + bc` for the
multiple writes, with `bc` the sixth byte, five for the other requests (R78), and what is given where no request is
selected. -/
def tablePduLength (nbits w : Nat) : Nat :=
  match w % 256 with
  | 0x01 | 0x02 | 0x03 | 0x04 | 0x05 | 0x06 => 5
  | 0x0F | 0x10 => 6 + w / 2 ^ 40 % 256
  | _ => nbits / 8

/-- The PDU whose bits are `w`: byte `j` is bits `8*j + 7` to `8*j`, and every bit at or above `nbits` is 0 (log
entry 14). -/
def tablePdu (nbits w : Nat) : List Byte :=
  (List.range (tablePduLength nbits (w % 2 ^ nbits))).map fun j => BitVec.ofNat 8 (w % 2 ^ nbits / 2 ^ (8 * j))

/-- The request the decoder reads from the PDU whose bits are `w`. -/
def decodeTableWord (nbits w : Nat) : Option Instr :=
  match decode (tablePdu nbits w) with
  | .ok i => some i
  | .error _ => none

end Sys2Proof
end

