-- ==== Sys2Proof/Machine/State.lean ====
section
/-! DEFINITION. The state of the block (10_state.md R20 to R37), its input and output events (00_scope.md R15), the
reasons a step of the model stops, and the state after reset. -/

namespace Sys2Proof.Machine

/-- The decoder's sequencing state (R31). -/
inductive Phase where
  | idle
  | receive
  | transmit
  deriving DecidableEq, Repr

/-- Why a received frame was dropped (R14, R205). -/
inductive DropReason where
  | overflow
  | short
  | crc
  | unrouted
  deriving DecidableEq, Repr

/-- The operation an observability event reports (R14, R137). -/
inductive OpKind where
  | read
  | write
  deriving DecidableEq, Repr

/-- A sequence of element values of one bank kind, lowest address first. The kind and the range of the elements are in
the type, so a value out of range for its kind cannot be written (R192). -/
inductive BankValues where
  | co (v : List Bool)
  | di (v : List Bool)
  | ir (v : List Word)
  | hr (v : List Word)
  deriving DecidableEq, Repr

/-- What a host access answers (R191, R192). -/
inductive HostReply where
  | ok
  | values (v : BankValues)
  | addressingFault
  deriving DecidableEq, Repr

/-- The input events (R15). The kind of a host write is that of its values. -/
inductive Input where
  | rxByte (b : Byte)
  | tick
  | txTake
  | hostRead (slave : Nat) (kind : Kind) (addr count : Nat)
  | hostWrite (slave : Nat) (addr : Nat) (values : BankValues)
  | reset
  deriving DecidableEq, Repr

/-- The output events (R15). -/
inductive Output where
  | txByte (b : Byte)
  | obs (op : OpKind) (slave : Nat) (kind : Kind) (addr count : Nat) (values : BankValues)
  | drop (reason : DropReason)
  | rxIgnored (b : Byte)
  | hostResult (reply : HostReply)
  deriving DecidableEq, Repr

/-- The four register banks of one slave context (R21); an absent bank has no elements (R23). -/
structure SlaveBanks where
  co : List Bool
  di : List Bool
  ir : List Word
  hr : List Word
  deriving DecidableEq, Repr

/-- The banks of all slave contexts, in order of their index: all the memory the block has (R35). -/
abbrev Memory := List SlaveBanks

/-- The state of the block. `rxLen` and `txLen` are the lengths of the two buffer lists (R37 allows this; log
entry 5). `cfg` is the parameter `CFG`, which no step changes (log entry 1). `inputs` is the environment's schedule of
events not yet consumed and `outputs` its record of the events emitted so far; both are the model's own (log entries 3
and 4). -/
structure State where
  /-- `CFG` (R6 to R11, R34). -/
  cfg : Config
  /-- `bank[s][k]` (R21). -/
  banks : Memory
  /-- `rx_buf[0 .. rx_len-1]` (R24, R25). -/
  rxBuf : List Byte
  /-- `rx_ovf` (R26). -/
  rxOvf : Bool
  /-- `idle_cnt` (R27). -/
  idleCnt : Nat
  /-- `tx_buf[0 .. tx_len-1]` (R28, R29). -/
  txBuf : List Byte
  /-- `tx_pos` (R30). -/
  txPos : Nat
  /-- `phase` (R31). -/
  phase : Phase
  /-- Scheduled input events, the next one first (model's own, log entry 3). -/
  inputs : List Input
  /-- Emitted output events, the oldest first (model's own, log entry 4). -/
  outputs : List Output
  deriving DecidableEq, Repr

/-- `rx_len` (R25). -/
def State.rxLen (s : State) : Nat := s.rxBuf.length

/-- `tx_len` (R29). -/
def State.txLen (s : State) : Nat := s.txBuf.length

/-- Why the model stops where the block has no rule. -/
inductive Fault where
  /-- Raised by `TxTake` in phase `TRANSMIT` when the response buffer holds no byte at `tx_pos`. No run reaches such a
  state (R33) and no rule says what the byte is (R29). Safe (log entry 10). -/
  | noByteToSend
  deriving DecidableEq, Repr

/-- Why the model refuses to run. -/
inductive Refusal where
  /-- Raised by an arm of `exec` whose instruction has no meaning yet. No arm is left so. Safe. -/
  | notModelled (mnemonic : String)
  /-- Raised by `step` when the configuration is not well formed: a model refuses it (R11; U11 of
  93_implementation_defined.md). Safe (log entry 11). -/
  | illFormedConfiguration
  /-- Raised by `HostRead` and `HostWrite` with a slave index not below `NSLAVES`: not a legal event (R191; U12 of
  93_implementation_defined.md: refuse). Safe (log entry 12). -/
  | illegalHostEvent
  deriving DecidableEq, Repr

/-- The banks of one slave at their initial contents `INIT` (R37). -/
def initialSlaveBanks (c : SlaveConfig) : SlaveBanks :=
  { co := c.co.init, di := c.di.init, ir := c.ir.init, hr := c.hr.init }

/-- Every bank at its initial contents `INIT` (R37). -/
def initialBanks (cfg : Config) : Memory := cfg.slaves.map initialSlaveBanks

/-- `init(CFG)`: the state after reset under a given configuration (R37, R230), with no event scheduled. -/
def State.init (cfg : Config) : State :=
  { cfg := cfg, banks := initialBanks cfg, rxBuf := [], rxOvf := false, idleCnt := 0, txBuf := [], txPos := 0,
    phase := .idle, inputs := [], outputs := [] }

/-- The machine right after reset, under the reference configuration (DESIGN CHOICE, log entry 2: the spec gives no
default configuration; every statement is about every configuration). -/
def State.reset : State := State.init Config.reference

end Sys2Proof.Machine
end

