-- ==== Sys2Proof/Machine/Flags.lean ====
section
/-! DEFINITION. The block's one flag `rx_ovf` (10_state.md R26): who sets it and who clears it. No request reads or
writes it. -/

namespace Sys2Proof.Machine

/-- The value of `rx_ovf` after a received byte (R110): set when the buffer is full, else as before. -/
def overflowAfterByte (s : State) : Bool :=
  if s.rxBuf.length < rxMax then s.rxOvf else true

/-- The frame end clears the flag (R112). -/
def clearOverflow (s : State) : State := { s with rxOvf := false }

end Sys2Proof.Machine
end

