-- ==== Sys2Proof/Machine/Framing.lean ====
section
/-! DEFINITION. CRC16 and the RTU frame (40_frame_codec.md R100 to R104), and the parts of a received frame
(30_encoding.md R70). -/

namespace Sys2Proof.Machine

/-- One shift of the CRC register (R100): the bit shifted out selects the exclusive-or with `0xA001`. -/
def crcShift (crc : Word) : Word :=
  if crc.getLsbD 0 then (crc >>> 1) ^^^ 0xA001#16 else crc >>> 1

/-- One byte into the CRC register (R100): exclusive-or into the low half, then eight shifts. -/
def crcByte (crc : Word) (b : Byte) : Word :=
  crcShift (crcShift (crcShift (crcShift (crcShift (crcShift (crcShift (crcShift (crc ^^^ b.setWidth 16))))))))

/-- `crc16(m)` (R100): initial value `0xFFFF`, no final exclusive-or. -/
def crc16 (m : List Byte) : Word := m.foldl crcByte 0xFFFF#16

/-- `[lo8(c), hi8(c)]`: a CRC as it is sent, low byte first (R101). -/
def crcBytes (c : Word) : List Byte := [lo8 c, hi8 c]

/-- `crc_ok(f)` (R103): the CRC of all bytes but the trailing two is `f[L-2] + 256*f[L-1]`. -/
def crcOk (f : List Byte) : Bool :=
  crc16 (f.take (f.length - 2)) == be16 (f.getD (f.length - 1) 0#8) (f.getD (f.length - 2) 0#8)

/-- `rtu_frame(unit, pdu)` (R104). -/
def rtuFrame (unit : Byte) (pdu : List Byte) : List Byte :=
  unit :: pdu ++ crcBytes (crc16 (unit :: pdu))

/-- The PDU of a received frame: bytes `1 .. L-3` (R70). -/
def framePdu (f : List Byte) : List Byte := (f.take (f.length - 2)).drop 1

end Sys2Proof.Machine
end

