-- ==== Sys2Proof/Machine/Operands.lean ====
section
/-! DEFINITION. The operands of requests and accesses: sequences of bank values and their wire form (20_memory.md R51,
R58), quantity limits and byte counts (41_request_decoder.md R135), and the operands of the textual request forms
(30_encoding.md R90). -/

namespace Sys2Proof.Machine

/-- The bank kind of a sequence of values. -/
def BankValues.kind : BankValues → Kind
  | .co _ => .co
  | .di _ => .di
  | .ir _ => .ir
  | .hr _ => .hr

/-- How many elements (R137: `count`). -/
def BankValues.length : BankValues → Nat
  | .co v => v.length
  | .di v => v.length
  | .ir v => v.length
  | .hr v => v.length

/-- Elements `addr .. addr+n-1` of a list. -/
def slice {α : Type} (l : List α) (addr n : Nat) : List α := (l.drop addr).take n

/-- The list with `v[i]` at `addr + i` and every other element as it was. -/
def splice {α : Type} (l : List α) (addr : Nat) (v : List α) : List α :=
  l.take addr ++ v ++ l.drop (addr + v.length)

/-- Elements `addr .. addr+n-1` of a bank's contents. -/
def BankValues.slice (v : BankValues) (addr n : Nat) : BankValues :=
  match v with
  | .co v => .co (Machine.slice v addr n)
  | .di v => .di (Machine.slice v addr n)
  | .ir v => .ir (Machine.slice v addr n)
  | .hr v => .hr (Machine.slice v addr n)

/-- A bit element as the number 0 or 1 (R137). -/
def bitWord (b : Bool) : Word := if b then 1#16 else 0#16

/-- The values as numbers, bits as 0 or 1 (R137). -/
def BankValues.numbers : BankValues → List Word
  | .co v => v.map bitWord
  | .di v => v.map bitWord
  | .ir v => v
  | .hr v => v

/-- The values on the wire: bits packed, words high byte first (R51, R155, R156). -/
def BankValues.pack : BankValues → List Byte
  | .co v => packBits v
  | .di v => packBits v
  | .ir v => packWords v
  | .hr v => packWords v

/-- The four banks of a slave by kind (R21). -/
def SlaveBanks.get (b : SlaveBanks) : Kind → BankValues
  | .co => .co b.co
  | .di => .di b.di
  | .ir => .ir b.ir
  | .hr => .hr b.hr

/-- No values of a kind. -/
def BankValues.empty : Kind → BankValues
  | .co => .co []
  | .di => .di []
  | .ir => .ir []
  | .hr => .hr []

/-- Values written into the bank of their kind, `v[i]` at `addr + i` (R54). -/
def SlaveBanks.write (b : SlaveBanks) (addr : Nat) : BankValues → SlaveBanks
  | .co v => { b with co := splice b.co addr v }
  | .di v => { b with di := splice b.di addr v }
  | .ir v => { b with ir := splice b.ir addr v }
  | .hr v => { b with hr := splice b.hr addr v }

/-- Whether a kind holds bits (R14). -/
def bitKind : Kind → Bool
  | .co | .di => true
  | .ir | .hr => false

/-- The byte count of a read response (R74): `ceil8(qty)` for the bit kinds, `2*qty` for the word kinds. -/
def readByteCount (k : Kind) (qty : Nat) : Nat := if bitKind k then ceil8 qty else 2 * qty

/-- The greatest quantity of a read request (R10, `QMAX` of R135). -/
def readLimit (k : Kind) : Nat := if bitKind k then maxRdBits else maxRdRegs

/-- The least quantity is 1 and the greatest the limit (R10, R135). -/
def quantityLegal (limit qty : Nat) : Bool := decide (1 ≤ qty) && decide (qty ≤ limit)

/-- A line of the textual form of R90, as data: a request to a unit, or any PDU byte by byte. -/
inductive RequestLine where
  | request (unit : Byte) (i : Instr)
  | raw (unit : Byte) (pdu : List Byte)
  deriving DecidableEq, Repr

/-- The unit identifier a line is for (R90). -/
def RequestLine.unit : RequestLine → Byte
  | .request u _ => u
  | .raw u _ => u

/-- The PDU a line stands for (R90, R83). -/
def RequestLine.pdu : RequestLine → List Byte
  | .request _ i => encode i
  | .raw _ p => p

/-- The frame a line stands for (R90): `[u] ++ PDU ++ [crc_lo, crc_hi]`. -/
def RequestLine.frame (l : RequestLine) : List Byte := rtuFrame l.unit l.pdu

/-- The input events a line stands for (R90): its frame byte by byte, followed by a silence. -/
def RequestLine.events (cfg : Config) (l : RequestLine) : List Input :=
  l.frame.map Input.rxByte ++ List.replicate cfg.t35Ticks Input.tick

/-- A list in square brackets (R90). -/
def renderList (xs : List String) : String := "[" ++ String.intercalate ", " xs ++ "]"

/-- A bit as 0 or 1 (R90). -/
def renderBit (b : Bool) : String := if b then "1" else "0"

/-- A mnemonic, the unit and the operands, numbers decimal (R90). -/
def renderOperands (mnemonic : String) (unit : Byte) (operands : List String) : String :=
  mnemonic ++ " " ++ String.intercalate ", " (toString unit.toNat :: operands)

/-- The text of a line (R90). There are no pseudo-requests (R91). -/
def RequestLine.render : RequestLine → String
  | .request u (.rdco a q) => renderOperands "RDCO" u [toString a.toNat, toString q.toNat]
  | .request u (.rddi a q) => renderOperands "RDDI" u [toString a.toNat, toString q.toNat]
  | .request u (.rdhr a q) => renderOperands "RDHR" u [toString a.toNat, toString q.toNat]
  | .request u (.rdir a q) => renderOperands "RDIR" u [toString a.toNat, toString q.toNat]
  | .request u (.wrco a b) => renderOperands "WRCO" u [toString a.toNat, renderBit b]
  | .request u (.wrhr a v) => renderOperands "WRHR" u [toString a.toNat, toString v.toNat]
  | .request u (.wrmco a bs) => renderOperands "WRMCO" u [toString a.toNat, renderList (bs.map renderBit)]
  | .request u (.wrmhr a vs) =>
    renderOperands "WRMHR" u [toString a.toNat, renderList (vs.map fun v => toString v.toNat)]
  | .raw u p => renderOperands "RAW" u [renderList (p.map fun b => toString b.toNat)]

/-- A byte as two hexadecimal digits (R12). -/
def renderByte (b : Byte) : String :=
  String.ofList [Nat.digitChar (b.toNat / 16), Nat.digitChar (b.toNat % 16)] |>.toUpper

/-- The text of a response frame (R90): its bytes in hexadecimal with a leading arrow. -/
def renderResponse (frame : List Byte) : String := String.intercalate " " ("->" :: frame.map renderByte)

end Sys2Proof.Machine
end

