-- ==== Sys2Proof/Machine/Response.lean ====
section
/-! DEFINITION. Response PDUs: the layouts RS_R, RS_B, RS_W and RS_X (30_encoding.md R74, R75) as data, with their
encoder and decoder (R92 states the round trip for responses too). -/

namespace Sys2Proof.Machine

/-- A response PDU as data. -/
inductive Response where
  /-- Format `RS_R`: function code, byte count, data. -/
  | data (fc bc : Byte) (bytes : List Byte)
  /-- Format `RS_B`: function code, address, value. -/
  | single (fc : Byte) (addr val : Word)
  /-- Format `RS_W`: function code, address, quantity. -/
  | batch (fc : Byte) (addr qty : Word)
  /-- Format `RS_X`: the request's function code, and the exception code. -/
  | exception (fc : Byte) (code : ExcCode)
  deriving DecidableEq, Repr

/-- The response's bytes (R74, R75). -/
def encodeResponse : Response → List Byte
  | .data fc bc bytes => fc :: bc :: bytes
  | .single fc addr val => twoFieldPdu fc addr val
  | .batch fc addr qty => twoFieldPdu fc addr qty
  | .exception fc code => [fc ||| 0x80#8, code.code]

/-- The exception a code byte stands for (R200). -/
def excOfCode? (b : Byte) : Option ExcCode :=
  match b.toNat with
  | 1 => some .illegalFunction
  | 2 => some .illegalDataAddress
  | 3 => some .illegalDataValue
  | 4 => some .serverDeviceFailure
  | _ => none

/-- Read a response PDU as a master does: bit 7 of the function code tells an exception (R75), else the function code
gives the layout (R76). The function code of an exception comes back with bit 7 set (DEDUCED, log entry 20). Only
the layout is checked, not what the fields hold: an odd byte count for words, a byte count of 0 or above 250, any value
in an `RS_B` of 0x05, any quantity in an `RS_W` and any function code with bit 7 set are accepted (DESIGN CHOICE, log
entry 24). -/
def decodeResponse (pdu : List Byte) : Option Response :=
  match pdu with
  | [] => none
  | fc :: rest =>
    if fc.getLsbD 7 then
      match rest with
      | [c] => (excOfCode? c).map (Response.exception fc)
      | _ => none
    else match fc.toNat, rest with
      | 0x01, bc :: bytes | 0x02, bc :: bytes | 0x03, bc :: bytes | 0x04, bc :: bytes =>
        if bytes.length = bc.toNat then some (.data fc bc bytes) else none
      | 0x05, [a1, a2, v1, v2] | 0x06, [a1, a2, v1, v2] => some (.single fc (be16 a1 a2) (be16 v1 v2))
      | 0x0F, [a1, a2, q1, q2] | 0x10, [a1, a2, q1, q2] => some (.batch fc (be16 a1 a2) (be16 q1 q2))
      | _, _ => none

/-- The responses in the layout their function code calls for (R74 to R76), the function code of an exception in the
form it has on the line; the field values are as free as `decodeResponse` takes them (DESIGN CHOICE, log entry 24). -/
def Response.wf : Response → Bool
  | .data fc bc bytes =>
    (fc == 0x01#8 || fc == 0x02#8 || fc == 0x03#8 || fc == 0x04#8) && decide (bytes.length = bc.toNat)
  | .single fc _ _ => fc == 0x05#8 || fc == 0x06#8
  | .batch fc _ _ => fc == 0x0F#8 || fc == 0x10#8
  | .exception fc _ => fc.getLsbD 7

end Sys2Proof.Machine
end

