-- ==== Sys2Proof/Machine/Ops.lean ====
section
/-! DEFINITION. The named operations over banks and registers: routing (41_request_decoder.md R131), the bounds check
and the access primitives (20_memory.md R52 to R54), taking an exception and dropping a frame (60_exceptions.md R203,
R205), loading a response (40_frame_codec.md R116), and serving a routed request (41_request_decoder.md R133). -/

namespace Sys2Proof.Machine

/-- `route(u)` (R131). -/
def route (cfg : Config) (u : Byte) : Option Nat :=
  match cfg.mode with
  | .single => some 0
  | .multi => cfg.slaves.findIdx? fun c => c.unitId == u

/-- `in_range(s, k, addr, n)` (R52): the sum is taken in the naturals. -/
def inRange (cfg : Config) (sl : Nat) (k : Kind) (addr n : Nat) : Bool :=
  cfg.present sl k && decide (addr + n ≤ cfg.len sl k)

/-- The contents of `bank[s][k]` (R21). -/
def Memory.bank (m : Memory) (sl : Nat) (k : Kind) : BankValues :=
  match m[sl]? with
  | some b => b.get k
  | none => BankValues.empty k

/-- `bank[s][k][i]` as a number, bits as 0 or 1; none where there is no such element (R21, R60). -/
def State.element (s : State) (sl : Nat) (k : Kind) (i : Nat) : Option Word :=
  (Memory.bank s.banks sl k).numbers[i]?

/-- `MemRead(s, k, addr, n)` (R53). -/
def memRead (s : State) (sl : Nat) (k : Kind) (addr n : Nat) : Except ExcCode BankValues :=
  if inRange s.cfg sl k addr n then .ok ((Memory.bank s.banks sl k).slice addr n)
  else .error .illegalDataAddress

/-- `MemWrite(s, k, addr, n, v)` (R54): the banks after the write, or nothing written. The kind and the number of
elements are those of the values. -/
def memWrite (s : State) (sl : Nat) (addr : Nat) (v : BankValues) : Except ExcCode Memory :=
  if inRange s.cfg sl v.kind addr v.length then .ok (s.banks.modify sl fun b => b.write addr v)
  else .error .illegalDataAddress

/-- The canonical form of one slave's banks: each has the length the configuration gives it (R33). -/
def SlaveBanks.wf (c : SlaveConfig) (b : SlaveBanks) : Bool :=
  decide (b.co.length = c.co.len) && decide (b.di.length = c.di.len) && decide (b.ir.length = c.ir.len) &&
    decide (b.hr.length = c.hr.len)

/-- The canonical form of a list of slaves' banks beside the list of their configurations. -/
def banksWf : List SlaveConfig → Memory → Bool
  | [], [] => true
  | c :: cs, b :: bs => SlaveBanks.wf c b && banksWf cs bs
  | _, _ => false

/-- The canonical form of the banks: one entry per slave context, every bank of its length `LEN[s][k]` (R33). With it
equal contents are equal lists (log entry 15). -/
def Memory.wf (cfg : Config) (m : Memory) : Bool := banksWf cfg.slaves m

/-- `emit E` (R13). -/
def emit (e : Output) (s : State) : State := { s with outputs := s.outputs ++ [e] }

/-- `drop(reason)` (R205): phase to `IDLE`, one `Drop` event, nothing sent, no bank changed. -/
def drop (r : DropReason) (s : State) : State := emit (.drop r) { s with phase := .idle }

/-- A response PDU framed and loaded for transmission (R116); the unit identifier is the one received (R132). -/
def respond (unit : Byte) (r : Response) (s : State) : State :=
  { s with txBuf := rtuFrame unit (encodeResponse r), txPos := 0, phase := .transmit }

/-- Taking a protocol exception (R203): nothing is saved, the banks stay as they are, no `Obs`, and the exception
response is loaded. There is no return from it (R211): its last byte leaves by `TxTake` like any other. -/
def takeException (unit fc : Byte) (e : ExcCode) (s : State) : State := respond unit (.exception fc e) s

/-- The unit identifier of the frame in the receive buffer and the slave context it is routed to, or why there is
none (R112, R115). -/
def State.target (s : State) : Except DropReason (Byte × Nat) :=
  match s.rxBuf with
  | [] => .error .short
  | u :: _ =>
    match route s.cfg u with
    | some sl => .ok (u, sl)
    | none => .error .unrouted

/-- What a request handler returns (R133): the response, the new banks and the `Obs` event. -/
structure Reply where
  response : Response
  banks : Memory
  obs : Output
  deriving DecidableEq, Repr

/-- Run a request handler for the frame in the receive buffer (R116, R133): on success the banks are replaced, the
`Obs` event is emitted and the response is loaded; on an exception only the exception response is loaded. Where the
buffer holds no routed frame it is dropped (log entry 9; no run reaches that). -/
def serve (fc : Byte) (handler : Nat → Except ExcCode Reply) (s : State) : Host.Outcome State Fault Refusal :=
  match s.target with
  | .error r => .next (drop r s)
  | .ok (unit, sl) =>
    match handler sl with
    | .error e => .next (takeException unit fc e s)
    | .ok r => .next (respond unit r.response (emit r.obs { s with banks := r.banks }))

/-- The shared read handler `ReadBits`, `ReadWords` (R150): the quantity check, the bounds-checked read, the `Obs`
event and the `RS_R` response. -/
def readRequest (fc : Byte) (k : Kind) (addr qty : Word) (s : State) (sl : Nat) : Except ExcCode Reply :=
  if quantityLegal (readLimit k) qty.toNat then
    match memRead s sl k addr.toNat qty.toNat with
    | .error e => .error e
    | .ok v =>
      .ok { response := .data fc (BitVec.ofNat 8 (readByteCount k qty.toNat)) v.pack
            banks := s.banks
            obs := .obs .read sl k addr.toNat qty.toNat v }
  else .error .illegalDataValue

/-- What the write handlers share (R170): the bounds-checked batch write, the `Obs` event after it, and the response. -/
def writeRequest (addr : Word) (v : BankValues) (resp : Response) (s : State) (sl : Nat) : Except ExcCode Reply :=
  match memWrite s sl addr.toNat v with
  | .error e => .error e
  | .ok m => .ok { response := resp, banks := m, obs := .obs .write sl v.kind addr.toNat v.length v }

/-- A multiple write (R173, R174): the quantity check before the write. -/
def batchWriteRequest (limit : Nat) (addr : Word) (v : BankValues) (resp : Response) (s : State) (sl : Nat) :
    Except ExcCode Reply :=
  if quantityLegal limit v.length then writeRequest addr v resp s sl else .error .illegalDataValue

/-- The frame end consumes the receive buffer, the flag and the silence count in every case (R112). -/
def consumeFrame (s : State) : State := clearOverflow { s with rxBuf := [], idleCnt := 0 }

end Sys2Proof.Machine
end

