-- ==== Sys2Proof/Machine/ReadRequests.lean ====
section
/-! DEFINITION. The meanings of the four read requests (42_read_requests.md R150 to R154). -/

namespace Sys2Proof.Machine

/-- `RDCO`, Read Coils (R151). -/
def execRdco (addr qty : Word) (s : State) : Host.Outcome State Fault Refusal :=
  serve 0x01#8 (readRequest 0x01#8 .co addr qty s) s

/-- `RDDI`, Read Discrete Inputs (R152). -/
def execRddi (addr qty : Word) (s : State) : Host.Outcome State Fault Refusal :=
  serve 0x02#8 (readRequest 0x02#8 .di addr qty s) s

/-- `RDHR`, Read Holding Registers (R153). -/
def execRdhr (addr qty : Word) (s : State) : Host.Outcome State Fault Refusal :=
  serve 0x03#8 (readRequest 0x03#8 .hr addr qty s) s

/-- `RDIR`, Read Input Registers (R154). -/
def execRdir (addr qty : Word) (s : State) : Host.Outcome State Fault Refusal :=
  serve 0x04#8 (readRequest 0x04#8 .ir addr qty s) s

end Sys2Proof.Machine
end

