-- ==== Sys2Proof/Machine/WriteRequests.lean ====
section
/-! DEFINITION. The meanings of the four write requests (43_write_requests.md R170 to R174). A response is built from the
request, not read back from the bank (R170). -/

namespace Sys2Proof.Machine

/-- `WRCO`, Write Single Coil (R171); the response repeats the request (`RS_B`). -/
def execWrco (addr : Word) (bit : Bool) (s : State) : Host.Outcome State Fault Refusal :=
  serve 0x05#8 (writeRequest addr (.co [bit]) (.single 0x05#8 addr (coilValue bit)) s) s

/-- `WRHR`, Write Single Register (R172); the response repeats the request (`RS_B`). -/
def execWrhr (addr val : Word) (s : State) : Host.Outcome State Fault Refusal :=
  serve 0x06#8 (writeRequest addr (.hr [val]) (.single 0x06#8 addr val) s) s

/-- `WRMCO`, Write Multiple Coils (R173); the response is function code, address and quantity (`RS_W`). -/
def execWrmco (addr : Word) (bits : List Bool) (s : State) : Host.Outcome State Fault Refusal :=
  serve 0x0F#8
    (batchWriteRequest maxWrBits addr (.co bits) (.batch 0x0F#8 addr (BitVec.ofNat 16 bits.length)) s) s

/-- `WRMHR`, Write Multiple Registers (R174); the response is function code, address and quantity (`RS_W`). -/
def execWrmhr (addr : Word) (vals : List Word) (s : State) : Host.Outcome State Fault Refusal :=
  serve 0x10#8
    (batchWriteRequest maxWrRegs addr (.hr vals) (.batch 0x10#8 addr (BitVec.ofNat 16 vals.length)) s) s

end Sys2Proof.Machine
end

