-- ==== Sys2Proof/Machine/Dispatch.lean ====
section
/-! DEFINITION. What a decoded request does: one arm per constructor of Instr (41_request_decoder.md R133). -/

namespace Sys2Proof.Machine

/-- The effect of a decoded request on the state whose receive buffer holds its frame (R116, R133). -/
def exec (i : Instr) (s : State) : Host.Outcome State Fault Refusal :=
  match i with
  | .rdco addr qty => Sys2Proof.Machine.execRdco addr qty s
  | .rddi addr qty => Sys2Proof.Machine.execRddi addr qty s
  | .rdhr addr qty => Sys2Proof.Machine.execRdhr addr qty s
  | .rdir addr qty => Sys2Proof.Machine.execRdir addr qty s
  | .wrco addr bit => Sys2Proof.Machine.execWrco addr bit s
  | .wrhr addr val => Sys2Proof.Machine.execWrhr addr val s
  | .wrmco addr bits => Sys2Proof.Machine.execWrmco addr bits s
  | .wrmhr addr vals => Sys2Proof.Machine.execWrmhr addr vals s

end Sys2Proof.Machine
end

