-- ==== Sys2Proof/Machine/Events.lean ====
section
/-! DEFINITION. The input events that run no request: a received byte (40_frame_codec.md R110, R119), a byte taken by the
transmitter (R118), the host accesses (44_host_port.md R191, R192), the reset (70_reset_and_hazards.md R230), and how
the environment's events come to be scheduled (60_exceptions.md R210). -/

namespace Sys2Proof.Machine

/-- `RxByte(b)`: stored or lost in phases `IDLE` and `RECEIVE` (R110), discarded in phase `TRANSMIT` (R119). -/
def receiveByte (b : Byte) (s : State) : State :=
  match s.phase with
  | .transmit => emit (.rxIgnored b) s
  | .idle | .receive =>
    { s with
      rxBuf := if s.rxBuf.length < rxMax then s.rxBuf ++ [b] else s.rxBuf
      rxOvf := overflowAfterByte s
      idleCnt := 0
      phase := .receive }

/-- `TxTake` (R118): the next byte of the response leaves; the last one returns the block to `IDLE`. Nothing outside
phase `TRANSMIT`. A response buffer with no byte at `tx_pos` is a state no run reaches (log entry 10). -/
def takeByte (s : State) : Host.Outcome State Fault Refusal :=
  match s.phase with
  | .idle | .receive => .next s
  | .transmit =>
    match s.txBuf[s.txPos]? with
    | none => .fault .noByteToSend
    | some b =>
      if s.txPos + 1 < s.txBuf.length then .next (emit (.txByte b) { s with txPos := s.txPos + 1 })
      else .next (emit (.txByte b) { s with txBuf := [], txPos := 0, phase := .idle })

/-- `HostRead(s, k, addr, count)` (R191): no state changes and no `Obs` (R193). A slave index not below `NSLAVES` is
not a legal event (log entry 12). -/
def hostRead (sl : Nat) (k : Kind) (addr count : Nat) (s : State) : Host.Outcome State Fault Refusal :=
  if sl < s.cfg.nslaves then
    match memRead s sl k addr count with
    | .ok v => .next (emit (.hostResult (.values v)) s)
    | .error _ => .next (emit (.hostResult .addressingFault) s)
  else .refused .illegalHostEvent

/-- `HostWrite(s, k, addr, values)` (R192): all or nothing, any kind, no `Obs` (R193). A slave index not below
`NSLAVES` is not a legal event (log entry 12). -/
def hostWrite (sl : Nat) (addr : Nat) (v : BankValues) (s : State) : Host.Outcome State Fault Refusal :=
  if sl < s.cfg.nslaves then
    match memWrite s sl addr v with
    | .ok m => .next (emit (.hostResult .ok) { s with banks := m })
    | .error _ => .next (emit (.hostResult .addressingFault) s)
  else .refused .illegalHostEvent

/-- `Reset` (R230), in every phase (R231): no output. The configuration, the events still scheduled and the record of
outputs are not the block's and stay (log entry 22). -/
def resetBlock (s : State) : State :=
  { s with banks := initialBanks s.cfg, rxBuf := [], rxOvf := false, idleCnt := 0, txBuf := [], txPos := 0, phase := .idle }

/-- The place of an event among those of one clock cycle (R210): `Reset`, `RxByte`, `Tick`, `TxTake`, `HostWrite`,
`HostRead`. -/
def Input.cycleRank : Input → Nat
  | .reset => 0
  | .rxByte _ => 1
  | .tick => 2
  | .txTake => 3
  | .hostWrite _ _ _ => 4
  | .hostRead _ _ _ _ => 5

/-- The events of one clock cycle in the order they are to be presented (R210). -/
def cycleOrder (events : List Input) : List Input :=
  [0, 1, 2, 3, 4, 5].flatMap fun r => events.filter fun e => e.cycleRank == r

/-- The environment asserts these events in one cycle, after all it has scheduled before (R210). -/
def State.presentCycle (s : State) (events : List Input) : State :=
  { s with inputs := s.inputs ++ cycleOrder events }

end Sys2Proof.Machine
end

