-- ==== Sys2Proof/Machine/FrameEnd.lean ====
section
/-! DEFINITION. The silence counter and the atomic frame-end step (40_frame_codec.md R111 to R116), and the reaction to
one input event (00_scope.md R15). -/

namespace Sys2Proof.Machine

/-- `Dispatch` on the bytes of a PDU (R133): the decoded request runs; a PDU that decodes to none takes the exception
the decoder names, with the function-code byte it begins with. -/
def dispatchPdu (unit : Byte) (pdu : List Byte) (s : State) : Host.Outcome State Fault Refusal :=
  match decode pdu with
  | .ok i => exec i s
  | .error e => .next (takeException unit (pdu.headD 0#8) e s)

/-- The receive side is consumed after the request has run (R112 clears it before, in the same atomic step; log
entry 6). -/
def consumeAfter : Host.Outcome State Fault Refusal → Host.Outcome State Fault Refusal
  | .next t => .next (consumeFrame t)
  | .fault r => .fault r
  | .refused r => .refused r

/-- `FrameEnd()` (R112): overflow, length, CRC, routing, then `Accept` (R116). -/
def frameEnd (s : State) : Host.Outcome State Fault Refusal :=
  if s.rxOvf then .next (drop .overflow (consumeFrame s))
  else if s.rxBuf.length < 4 then .next (drop .short (consumeFrame s))
  else if crcOk s.rxBuf then
    match s.target with
    | .error r => .next (drop r (consumeFrame s))
    | .ok (unit, _) => consumeAfter (dispatchPdu unit (framePdu s.rxBuf) s)
  else .next (drop .crc (consumeFrame s))

/-- `Tick` (R111): ignored outside phase `RECEIVE`; the tick that completes the silence ends the frame. -/
def tick (s : State) : Host.Outcome State Fault Refusal :=
  match s.phase with
  | .idle | .transmit => .next s
  | .receive =>
    if s.idleCnt + 1 < s.cfg.t35Ticks then .next { s with idleCnt := s.idleCnt + 1 } else frameEnd s

/-- The block's reaction to one input event (R15). -/
def react (e : Input) (s : State) : Host.Outcome State Fault Refusal :=
  match e with
  | .rxByte b => .next (receiveByte b s)
  | .tick => tick s
  | .txTake => takeByte s
  | .hostRead sl k addr count => hostRead sl k addr count s
  | .hostWrite sl addr values => hostWrite sl addr values s
  | .reset => .next (resetBlock s)

/-- One step: a configuration that is not well formed is refused (R11; log entry 11); the next scheduled event is
consumed; with none scheduled the block keeps its state (R217; log entry 18). -/
def stepBlock (s : State) : Host.Outcome State Fault Refusal :=
  if s.cfg.wf then
    match s.inputs with
    | [] => .next s
    | e :: rest => react e { s with inputs := rest }
  else .refused .illFormedConfiguration

/-- The unit identifier a placed request frame carries: that of slave context 0, which routes in both modes (R131). -/
def placedUnit (cfg : Config) : Byte :=
  match cfg.slaves with
  | [] => 0#8
  | c :: _ => c.unitId

/-- The state in which the frame of a PDU has been received whole and the tick that completes the silence is the next
event (R110, R111). -/
def placeFrame (unit : Byte) (pdu : List Byte) (s : State) : State :=
  { s with rxBuf := rtuFrame unit pdu, rxOvf := false, idleCnt := s.cfg.t35Ticks - 1, txBuf := [], txPos := 0,
           phase := .receive, inputs := .tick :: s.inputs }

end Sys2Proof.Machine
end

