-- ==== Sys2Proof/Machine/Step.lean ====
section
/-! DEFINITION. One step of the machine, and the placing of a request where the next step runs it. -/

namespace Sys2Proof.Machine

/-- One step: one input event is consumed (00_scope.md R15). -/
def step (s : State) : Host.Outcome State Fault Refusal := stepBlock s

/-- The state with the request whose PDU bits are `w` received as a frame, so that the very next step runs it (log
entry 13). -/
def State.withFetchWord (s : State) (nbits w : Nat) : State :=
  placeFrame (placedUnit s.cfg) (tablePdu nbits w) s

end Sys2Proof.Machine
end

