-- ==== Sys2Proof/Machine/Pseudocode.lean ====
section
/-! DEFINITION. The pseudocode of `Dispatch` and its handlers on the raw bytes of a PDU, transcribed from the spec
(41_request_decoder.md R133, R135; 42_read_requests.md R150; 43_write_requests.md R171 to R174). The machine decodes a
PDU to a request first and then runs it; this text is the other view, for the claim that the two agree. -/

namespace Sys2Proof.Machine

/-- What `Dispatch` returns (R133): a response PDU, the new banks and the list of `Obs` events. -/
abbrev RawReply := List Byte × Memory × List Output

/-- `be16(pdu[j], pdu[j+1])` as a natural number (R12, R73). -/
def rawField (pdu : List Byte) (j : Nat) : Nat := 256 * (pdu.getD j 0#8).toNat + (pdu.getD (j + 1) 0#8).toNat

/-- `ReadBits(s, k, pdu)` and `ReadWords(s, k, pdu)` (R150), which differ in the limit and the byte count. -/
def rawRead (limit : Nat) (byteCount : Nat → Nat) (k : Kind) (s : State) (sl : Nat) (pdu : List Byte) :
    Except ExcCode RawReply :=
  if pdu.length ≠ 5 then .error .illegalDataValue
  else if rawField pdu 3 < 1 ∨ rawField pdu 3 > limit then .error .illegalDataValue
  else if s.cfg.present sl k = false ∨ rawField pdu 1 + rawField pdu 3 > s.cfg.len sl k then
    .error .illegalDataAddress
  else
    .ok ([pdu.getD 0 0#8, BitVec.ofNat 8 (byteCount (rawField pdu 3))] ++
          ((Memory.bank s.banks sl k).slice (rawField pdu 1) (rawField pdu 3)).pack,
      s.banks,
      [.obs .read sl k (rawField pdu 1) (rawField pdu 3)
        ((Memory.bank s.banks sl k).slice (rawField pdu 1) (rawField pdu 3))])

/-- The end of the write handlers (R171 to R174): `MemWrite`, the `Obs` event, the response. -/
def rawWrite (s : State) (sl addr : Nat) (v : BankValues) (resp : List Byte) : Except ExcCode RawReply :=
  if s.cfg.present sl v.kind = false ∨ addr + v.length > s.cfg.len sl v.kind then .error .illegalDataAddress
  else
    .ok (resp, s.banks.modify sl fun b => b.write addr v, [.obs .write sl v.kind addr v.length v])

/-- `WriteCoil(s, pdu)` (R171). -/
def rawWriteCoil (s : State) (sl : Nat) (pdu : List Byte) : Except ExcCode RawReply :=
  if pdu.length ≠ 5 then .error .illegalDataValue
  else if rawField pdu 3 ≠ 0xFF00 ∧ rawField pdu 3 ≠ 0x0000 then .error .illegalDataValue
  else rawWrite s sl (rawField pdu 1) (.co [rawField pdu 3 == 0xFF00]) pdu

/-- `WriteReg(s, pdu)` (R172). -/
def rawWriteReg (s : State) (sl : Nat) (pdu : List Byte) : Except ExcCode RawReply :=
  if pdu.length ≠ 5 then .error .illegalDataValue
  else rawWrite s sl (rawField pdu 1) (.hr [BitVec.ofNat 16 (rawField pdu 3)]) pdu

/-- The value checks of a multiple write, in order (R135, R173, R174), then the write of the values its data hold. -/
def rawWriteBatch (limit : Nat) (byteCount : Nat → Nat) (values : List Byte → Nat → BankValues) (s : State) (sl : Nat)
    (pdu : List Byte) : Except ExcCode RawReply :=
  if pdu.length < 6 then .error .illegalDataValue
  else if rawField pdu 3 < 1 ∨ rawField pdu 3 > limit then .error .illegalDataValue
  else if (pdu.getD 5 0#8).toNat ≠ byteCount (rawField pdu 3) then .error .illegalDataValue
  else if pdu.length ≠ 6 + (pdu.getD 5 0#8).toNat then .error .illegalDataValue
  else rawWrite s sl (rawField pdu 1) (values (pdu.drop 6) (rawField pdu 3)) (pdu.take 5)

/-- The `case` of `Dispatch` (R133). -/
def rawHandler (s : State) (sl : Nat) (pdu : List Byte) : Except ExcCode RawReply :=
  match (pdu.getD 0 0#8).toNat with
  | 0x01 => rawRead 2000 ceil8 .co s sl pdu
  | 0x02 => rawRead 2000 ceil8 .di s sl pdu
  | 0x03 => rawRead 125 (2 * ·) .hr s sl pdu
  | 0x04 => rawRead 125 (2 * ·) .ir s sl pdu
  | 0x05 => rawWriteCoil s sl pdu
  | 0x06 => rawWriteReg s sl pdu
  | 0x0F => rawWriteBatch 1968 ceil8 (fun d q => .co (unpackBits d q)) s sl pdu
  | 0x10 => rawWriteBatch 123 (2 * ·) (fun d q => .hr (unpackWords d q)) s sl pdu
  | _ => .error .illegalFunction

/-- `Dispatch(s, pdu)` (R133): an exception gives the exception response, the banks as they were and no `Obs`. -/
def rawDispatch (s : State) (sl : Nat) (pdu : List Byte) : RawReply :=
  match rawHandler s sl pdu with
  | .ok r => r
  | .error e => ([pdu.getD 0 0#8 ||| 0x80#8, e.code], s.banks, [])

end Sys2Proof.Machine
end

