-- ==== Sys2Proof/Safety.lean ====
section
/-! DEFINITION. What the claims speak of: the invariant of 10_state.md R33, reachable states, legal events, and the
situations claims start from (a frame about to end, a request held in the receive buffer). -/

namespace Sys2Proof.Machine

/-- R33: in phase `IDLE` nothing has been received and nothing is being sent. -/
abbrev IdleIsClean (s : State) : Prop :=
  s.phase = .idle → s.rxBuf = [] ∧ s.rxOvf = false ∧ s.idleCnt = 0 ∧ s.txBuf = [] ∧ s.txPos = 0

/-- R33: in phase `RECEIVE` at least one byte is stored, the buffer bound and the silence bound hold, nothing is sent. -/
abbrev ReceiveIsBounded (s : State) : Prop :=
  s.phase = .receive →
    1 ≤ s.rxLen ∧ s.rxLen ≤ rxMax ∧ s.idleCnt < s.cfg.t35Ticks ∧ s.txBuf = [] ∧ s.txPos = 0

/-- R33: the overflow flag is set only while receiving into a full buffer. -/
abbrev OverflowMeansFull (s : State) : Prop :=
  s.rxOvf = true → s.phase = .receive ∧ s.rxLen = rxMax

/-- R33: in phase `TRANSMIT` a well-formed response of 5 to 255 bytes is being sent and nothing is being received. -/
abbrev TransmitIsFramed (s : State) : Prop :=
  s.phase = .transmit →
    5 ≤ s.txLen ∧ s.txLen ≤ 255 ∧ s.txPos < s.txLen ∧ s.rxBuf = [] ∧ s.rxOvf = false ∧ s.idleCnt = 0 ∧
      crcOk s.txBuf = true

/-- The invariant of R33, under a well-formed configuration (R11): the four clauses on the phases and every bank of the
length the configuration gives it. Elements are in range by their types. -/
abbrev State.Inv (s : State) : Prop :=
  s.cfg.wf = true ∧ Memory.wf s.cfg s.banks = true ∧
    IdleIsClean s ∧ ReceiveIsBounded s ∧ OverflowMeansFull s ∧ TransmitIsFramed s

/-- The states of every run under a configuration: the state after reset, whatever the environment schedules, at the
start and later, and every step. -/
inductive Reachable (cfg : Config) : State → Prop where
  | init : Reachable cfg (State.init cfg)
  | schedule {s : State} (events : List Input) :
      Reachable cfg s → Reachable cfg { s with inputs := s.inputs ++ events }
  | step {s t : State} : Reachable cfg s → Machine.step s = .next t → Reachable cfg t

/-- A legal input event (44_host_port.md R191, R192): a host access names a slave context that exists. -/
def Input.legal (cfg : Config) : Input → Bool
  | .hostRead sl _ _ _ => decide (sl < cfg.nslaves)
  | .hostWrite sl _ _ => decide (sl < cfg.nslaves)
  | .rxByte _ | .tick | .txTake | .reset => true

/-- The next step is that of one given event, under a well-formed configuration. -/
abbrev NextEvent (s : State) (e : Input) (rest : List Input) : Prop :=
  s.cfg.wf = true ∧ s.inputs = e :: rest

/-- The next step is the frame end (R111): a `Tick` in phase `RECEIVE` that completes the silence. -/
abbrev FrameEndsNext (s : State) (rest : List Input) : Prop :=
  NextEvent s .tick rest ∧ s.phase = .receive ∧ s.cfg.t35Ticks ≤ s.idleCnt + 1

/-- The receive buffer holds, without overflow, the frame of a PDU from a unit that is routed to slave `sl`: the
framing checks R113 to R115 pass. -/
abbrev HoldsRequest (s : State) (unit : Byte) (sl : Nat) (pdu : List Byte) : Prop :=
  s.rxOvf = false ∧ s.rxBuf = rtuFrame unit pdu ∧ pdu ≠ [] ∧ route s.cfg unit = some sl

/-- The frame in the receive buffer comes from `unit` and is routed to slave `sl`. -/
abbrev Serves (s : State) (unit : Byte) (sl : Nat) : Prop :=
  s.rxBuf.head? = some unit ∧ route s.cfg unit = some sl

/-- The range of a request lies inside a bank that is present (R52). -/
abbrev InBank (cfg : Config) (sl : Nat) (k : Kind) (addr n : Nat) : Prop :=
  cfg.present sl k = true ∧ addr + n ≤ cfg.len sl k

/-- The state after an accepted frame whose response is `r` (R116), seen by `exec`: the response framed for the unit it
came from, nothing else changed. -/
def State.answered (s : State) (unit : Byte) (pdu : List Byte) : State :=
  { s with txBuf := rtuFrame unit pdu, txPos := 0, phase := .transmit }

/-- Everything but the banks, the transmit side, the phase and the outputs is as before: what a request never touches. -/
abbrev SameReceiveSide (s t : State) : Prop :=
  t.cfg = s.cfg ∧ t.rxBuf = s.rxBuf ∧ t.rxOvf = s.rxOvf ∧ t.idleCnt = s.idleCnt ∧ t.inputs = s.inputs

/-- The elements a request may write (R22): the kind, the first address and how many; none for a read request. The
slave is the one the frame is routed to. -/
def writeRange : Instr → Option (Kind × Nat × Nat)
  | .rdco _ _ | .rddi _ _ | .rdhr _ _ | .rdir _ _ => none
  | .wrco addr _ => some (.co, addr.toNat, 1)
  | .wrhr addr _ => some (.hr, addr.toNat, 1)
  | .wrmco addr bits => some (.co, addr.toNat, bits.length)
  | .wrmhr addr vals => some (.hr, addr.toNat, vals.length)

/-- The supported function codes (R76). -/
abbrev SupportedCode (fc : Byte) : Prop :=
  fc.toNat ∈ [0x01, 0x02, 0x03, 0x04, 0x05, 0x06, 0x0F, 0x10]

/-- The value checks of R135 on the bytes of a PDU with a supported function code: PDU length, quantity range, coil
value, byte count. -/
def valueChecks (pdu : List Byte) : Bool :=
  match (pdu.getD 0 0#8).toNat with
  | 0x01 | 0x02 => pdu.length == 5 && decide (1 ≤ rawField pdu 3) && decide (rawField pdu 3 ≤ 2000)
  | 0x03 | 0x04 => pdu.length == 5 && decide (1 ≤ rawField pdu 3) && decide (rawField pdu 3 ≤ 125)
  | 0x05 => pdu.length == 5 && (rawField pdu 3 == 0xFF00 || rawField pdu 3 == 0)
  | 0x06 => pdu.length == 5
  | 0x0F =>
    decide (6 ≤ pdu.length) && decide (1 ≤ rawField pdu 3) && decide (rawField pdu 3 ≤ 1968) &&
      (pdu.getD 5 0#8).toNat == ceil8 (rawField pdu 3) && pdu.length == 6 + (pdu.getD 5 0#8).toNat
  | 0x10 =>
    decide (6 ≤ pdu.length) && decide (1 ≤ rawField pdu 3) && decide (rawField pdu 3 ≤ 123) &&
      (pdu.getD 5 0#8).toNat == 2 * rawField pdu 3 && pdu.length == 6 + (pdu.getD 5 0#8).toNat
  | _ => false

/-- The bank kind a supported function code selects (R76). -/
def codeKind (fc : Byte) : Kind :=
  match fc.toNat with
  | 0x02 => .di
  | 0x03 | 0x06 | 0x10 => .hr
  | 0x04 => .ir
  | _ => .co

/-- How many elements a PDU addresses: its quantity field, 1 for a single write (R202). -/
def rawQuantity (pdu : List Byte) : Nat :=
  match (pdu.getD 0 0#8).toNat with
  | 0x05 | 0x06 => 1
  | _ => rawField pdu 3

/-- Bit `j` of a byte sequence, bit 0 of the first byte first (R51). -/
def bitAt (d : List Byte) (j : Nat) : Bool := (d.getD (j / 8) 0#8).getLsbD (j % 8)

/-- `k` steps, ending at the first stop. -/
def runSteps : Nat → State → Host.Outcome State Fault Refusal
  | 0, s => .next s
  | k + 1, s =>
    match step s with
    | .next t => runSteps k t
    | .fault r => .fault r
    | .refused r => .refused r

/-- An outcome with earlier outputs put before those of the next state. -/
def withEarlierOutputs (earlier : List Output) : Host.Outcome State Fault Refusal → Host.Outcome State Fault Refusal
  | .next t => .next { t with outputs := earlier ++ t.outputs }
  | .fault r => .fault r
  | .refused r => .refused r

/-- Whether an output event is an observability event (R137). -/
def Output.isObs : Output → Bool
  | .obs _ _ _ _ _ _ => true
  | .txByte _ | .drop _ | .rxIgnored _ | .hostResult _ => false

/-- A frame dropped at the frame end (R112, R205). -/
def State.dropped (s : State) (r : DropReason) : State :=
  { s with rxBuf := [], rxOvf := false, idleCnt := 0, phase := .idle, outputs := s.outputs ++ [.drop r] }

end Sys2Proof.Machine
end

