-- ==== Sys2Proof/Certificates/Slice0/Obligations.lean ====
section
/-! DEFINITION. The statements for the provers, one Prop each, from the numbered rules of spec/. -/

open Sys2Proof Sys2Proof.Machine

section Encoding

/-- Requests decode to themselves after encoding; a PDU that decodes is the encoding of its request, except that the
padding bits of a `WRMCO` PDU come back as 0; and the same pair of laws for response PDUs (R92). The last two clauses, on
responses, rest on the model's own reading, log entry 20: the response decoder, its layouts, and that an exception's
function code comes back with bit 7 set; and on its choice of which field values a response may hold, log entry 24. What
encoding gives back for a PDU that decodes to a multiple write of quantity 0 (log entry 7) is its choice, log entry 23. -/
def Obligations.CodecRoundTrip : Prop :=
  (∀ i : Instr, i.wf = true → decode (encode i) = .ok i) ∧
  (∀ (p : List Byte) (i : Instr), decode p = .ok i → (∀ a bs, i ≠ .wrmco a bs) → encode i = p) ∧
  (∀ (p : List Byte) (a : Word) (bs : List Bool), decode p = .ok (.wrmco a bs) →
    (encode (.wrmco a bs)).length = p.length ∧ (encode (.wrmco a bs)).take 6 = p.take 6 ∧
    ∀ j, bitAt ((encode (.wrmco a bs)).drop 6) j = (decide (j < bs.length) && bitAt (p.drop 6) j)) ∧
  (∀ r : Response, r.wf = true → decodeResponse (encodeResponse r) = some r) ∧
  (∀ (p : List Byte) (r : Response), decodeResponse p = some r → encodeResponse r = p)

/-- R81, R201: `IllegalFunction` is what a function code outside the eight decodes to, whatever follows it; at the end
of an accepted frame it is answered with the code's bit 7 set and 01, nothing else changed, and a code that has bit 7
set already comes back unchanged; a supported function code is never answered so. -/
def Obligations.UnsupportedFunctionAnsweredWith01 : Prop :=
  (∀ (fc : Byte) (rest : List Byte), decode (fc :: rest) = .error .illegalFunction ↔ ¬ SupportedCode fc) ∧
  (∀ (s : State) (later : List Input) (u fc : Byte) (sl : Nat) (rest : List Byte),
    FrameEndsNext s later → HoldsRequest s u sl (fc :: rest) →
    (¬ SupportedCode fc →
      step s = .next (consumeFrame ({ s with inputs := later }.answered u [fc ||| 0x80#8, 1#8]))) ∧
    (SupportedCode fc → ∃ t, step s = .next t ∧ t.txBuf ≠ rtuFrame u [fc ||| 0x80#8, 1#8])) ∧
  (∀ fc : Byte, fc.getLsbD 7 = true → ¬ SupportedCode fc ∧ fc ||| 0x80#8 = fc)

/-- What PDU length each format requires, that any other is `IllegalDataValue`, and that such a PDU is answered, not
dropped (R78). That a PDU of the required length decodes to a request (the coil value apart, R77) is R83 as the model
reads it, log entry 7: so a multiple write of quantity 0 with byte count 0 decodes too, and its meaning answers 03. -/
def Obligations.WrongPduLengthIsIllegalValue : Prop :=
  (∀ (fc : Byte) (payload : List Byte), fc.toNat ∈ [0x01, 0x02, 0x03, 0x04, 0x05, 0x06] → payload.length ≠ 4 →
    decode (fc :: payload) = .error .illegalDataValue) ∧
  (∀ (fc : Byte) (payload : List Byte), fc.toNat ∈ [0x01, 0x02, 0x03, 0x04, 0x06] → payload.length = 4 →
    ∃ i, decode (fc :: payload) = .ok i) ∧
  (∀ p : List Byte, p.getD 0 0#8 = 0x0F#8 →
    ((6 ≤ p.length ∧ (p.getD 5 0#8).toNat = ceil8 (rawField p 3) ∧ p.length = 6 + (p.getD 5 0#8).toNat) →
      ∃ i, decode p = .ok i) ∧
    (¬ (6 ≤ p.length ∧ (p.getD 5 0#8).toNat = ceil8 (rawField p 3) ∧ p.length = 6 + (p.getD 5 0#8).toNat) →
      decode p = .error .illegalDataValue)) ∧
  (∀ p : List Byte, p.getD 0 0#8 = 0x10#8 →
    ((6 ≤ p.length ∧ (p.getD 5 0#8).toNat = 2 * rawField p 3 ∧ p.length = 6 + (p.getD 5 0#8).toNat) →
      ∃ i, decode p = .ok i) ∧
    (¬ (6 ≤ p.length ∧ (p.getD 5 0#8).toNat = 2 * rawField p 3 ∧ p.length = 6 + (p.getD 5 0#8).toNat) →
      decode p = .error .illegalDataValue)) ∧
  (∀ (s : State) (later : List Input) (u fc : Byte) (sl : Nat) (rest : List Byte),
    FrameEndsNext s later → HoldsRequest s u sl (fc :: rest) → decode (fc :: rest) = .error .illegalDataValue →
    step s = .next (consumeFrame ({ s with inputs := later }.answered u [fc ||| 0x80#8, 3#8])))

/-- R77: the two legal value encodings of `WRCO`, every other illegal; every value legal in `WRHR`. -/
def Obligations.CoilValueHasTwoEncodings : Prop :=
  (∀ a1 a2 v1 v2 : Byte,
    decode [0x05#8, a1, a2, v1, v2] =
      if be16 v1 v2 = 0xFF00#16 then .ok (.wrco (be16 a1 a2) true)
      else if be16 v1 v2 = 0x0000#16 then .ok (.wrco (be16 a1 a2) false)
      else .error .illegalDataValue) ∧
  (∀ a1 a2 v1 v2 : Byte, decode [0x06#8, a1, a2, v1, v2] = .ok (.wrhr (be16 a1 a2) (be16 v1 v2)))

/-- R79: two `WRMCO` PDUs that differ only in padding bits decode to the same request, and the padding bits of packed
response data are 0. -/
def Obligations.PaddingBitsCarryNoValue : Prop :=
  (∀ (a1 a2 q1 q2 bc : Byte) (d d' : List Byte), d.length = d'.length →
    (∀ j, j < 256 * q1.toNat + q2.toNat → bitAt d j = bitAt d' j) →
    decode (0x0F#8 :: a1 :: a2 :: q1 :: q2 :: bc :: d) = decode (0x0F#8 :: a1 :: a2 :: q1 :: q2 :: bc :: d')) ∧
  (∀ (v : List Bool) (j : Nat), v.length ≤ j → bitAt (packBits v) j = false)

/-- R73: every 2-byte field is high byte first; the values of a multiple-register write are words high byte first and
those of a multiple-coil write are bits from bit 0 of each byte. -/
def Obligations.FieldsAreHighByteFirst : Prop :=
  (∀ b1 b2 b3 b4 : Byte, ∃ a q : Word,
    a.toNat = 256 * b1.toNat + b2.toNat ∧ q.toNat = 256 * b3.toNat + b4.toNat ∧
    decode [0x01#8, b1, b2, b3, b4] = .ok (.rdco a q) ∧ decode [0x02#8, b1, b2, b3, b4] = .ok (.rddi a q) ∧
    decode [0x03#8, b1, b2, b3, b4] = .ok (.rdhr a q) ∧ decode [0x04#8, b1, b2, b3, b4] = .ok (.rdir a q) ∧
    decode [0x06#8, b1, b2, b3, b4] = .ok (.wrhr a q) ∧
    ∀ c, decode [0x05#8, b1, b2, b3, b4] = .ok c → ∃ b, c = .wrco a b ∧ coilValue b = q) ∧
  (∀ (p : List Byte) (a : Word) (vs : List Word), decode p = .ok (.wrmhr a vs) →
    a.toNat = rawField p 1 ∧ vs.length = rawField p 3 ∧ (p.getD 5 0#8).toNat = 2 * vs.length ∧
    ∀ i, i < vs.length → (vs.getD i 0#16).toNat = rawField p (6 + 2 * i)) ∧
  (∀ (p : List Byte) (a : Word) (bs : List Bool), decode p = .ok (.wrmco a bs) →
    a.toNat = rawField p 1 ∧ bs.length = rawField p 3 ∧ (p.getD 5 0#8).toNat = ceil8 bs.length ∧
    ∀ i, i < bs.length → bs.getD i false = (p.getD (6 + i / 8) 0#8).getLsbD (i % 8))

/-- R155, R175: `pack_bits` as a sum of powers of two, `unpack_bits` bit by bit, that the second undoes the first, and
that it ignores the bits beyond the quantity. -/
def Obligations.BitPackingLaws : Prop :=
  (∀ v : List Bool, (packBits v).length = ceil8 v.length ∧
    ∀ j, j < ceil8 v.length →
      ((packBits v).getD j 0#8).toNat =
        ((List.range 8).map fun i => (v.getD (8 * j + i) false).toNat * 2 ^ i).sum) ∧
  (∀ (d : List Byte) (q : Nat), (unpackBits d q).length = q ∧
    ∀ i, i < q → (unpackBits d q).getD i false = ((d.getD (i / 8) 0#8) >>> (i % 8)).getLsbD 0) ∧
  (∀ v : List Bool, unpackBits (packBits v) v.length = v) ∧
  (∀ (d d' : List Byte) (q : Nat), (∀ j, j < q → bitAt d j = bitAt d' j) → unpackBits d q = unpackBits d' q)

/-- R156, R176: `pack_words` is two bytes a word, high byte first, `unpack_words` assembles them, and undoes it. -/
def Obligations.WordPackingLaws : Prop :=
  (∀ v : List Word, (packWords v).length = 2 * v.length ∧
    ∀ i, i < v.length → (packWords v).getD (2 * i) 0#8 = hi8 (v.getD i 0#16) ∧
      (packWords v).getD (2 * i + 1) 0#8 = lo8 (v.getD i 0#16)) ∧
  (∀ (d : List Byte) (q : Nat), (unpackWords d q).length = q ∧
    ∀ i, i < q → ((unpackWords d q).getD i 0#16).toNat = rawField d (2 * i)) ∧
  (∀ v : List Word, unpackWords (packWords v) v.length = v)

/-- One word of each request, written out from R83 and the instances of S6 in 95_test_vectors.md, decodes to the request
it stands for. -/
def Obligations.WrittenOutPdusDecode : Prop :=
  decode [0x01#8, 0x00#8, 0x04#8, 0x00#8, 0x09#8] = .ok (.rdco 4#16 9#16) ∧
  decode [0x02#8, 0x00#8, 0x02#8, 0x00#8, 0x06#8] = .ok (.rddi 2#16 6#16) ∧
  decode [0x03#8, 0x00#8, 0x00#8, 0x00#8, 0x02#8] = .ok (.rdhr 0#16 2#16) ∧
  decode [0x04#8, 0x00#8, 0x01#8, 0x00#8, 0x02#8] = .ok (.rdir 1#16 2#16) ∧
  decode [0x05#8, 0x00#8, 0x01#8, 0xFF#8, 0x00#8] = .ok (.wrco 1#16 true) ∧
  decode [0x06#8, 0x00#8, 0x63#8, 0xAB#8, 0xCD#8] = .ok (.wrhr 99#16 0xABCD#16) ∧
  decode [0x0F#8, 0x00#8, 0x03#8, 0x00#8, 0x0A#8, 0x02#8, 0xCD#8, 0x01#8] =
    .ok (.wrmco 3#16 [true, false, true, true, false, false, true, true, true, false]) ∧
  decode [0x10#8, 0x00#8, 0x00#8, 0x00#8, 0x02#8, 0x04#8, 0x00#8, 0x48#8, 0x00#8, 0x69#8] =
    .ok (.wrmhr 0#16 [72#16, 105#16])

end Encoding

section Frames

/-- R102: a frame with its CRC leaves the register at zero; the register is incremental in the bytes; and two sequences
of equal length that differ in exactly one byte have different CRCs. -/
def Obligations.CrcResidueAndErrorDetection : Prop :=
  (∀ m : List Byte, crc16 (m ++ [lo8 (crc16 m), hi8 (crc16 m)]) = 0x0000#16) ∧
  (∀ (m m' : List Byte) (b : Byte), crc16 m = crc16 m' → crc16 (m ++ [b]) = crc16 (m' ++ [b])) ∧
  (∀ (m n : List Byte) (x y : Byte), x ≠ y → crc16 (m ++ x :: n) ≠ crc16 (m ++ y :: n))

/-- R103: what `crc_ok` says, and that it is the same as a zero residue over the whole frame. -/
def Obligations.CrcCheckIsZeroResidue : Prop :=
  ∀ f : List Byte, 2 ≤ f.length →
    (crcOk f = true ↔
      (crc16 (f.take (f.length - 2))).toNat =
        (f.getD (f.length - 2) 0#8).toNat + 256 * (f.getD (f.length - 1) 0#8).toNat) ∧
    (crcOk f = true ↔ crc16 f = 0x0000#16)

/-- R101, R104: the RTU encoder puts the CRC of unit and PDU behind them, low byte first, and its frames pass the check. -/
def Obligations.EncodedFramesPassTheCheck : Prop :=
  ∀ (u : Byte) (p : List Byte),
    rtuFrame u p = [u] ++ p ++ [lo8 (crc16 ([u] ++ p)), hi8 (crc16 ([u] ++ p))] ∧ crcOk (rtuFrame u p) = true ∧
    rtuFrame 0x01#8 [0x03#8, 0x00#8, 0x00#8, 0x00#8, 0x0A#8] =
      [0x01#8, 0x03#8, 0x00#8, 0x00#8, 0x00#8, 0x0A#8, 0xC5#8, 0xCD#8] ∧
    rtuFrame 0x01#8 [0x83#8, 0x02#8] = [0x01#8, 0x83#8, 0x02#8, 0xC0#8, 0xF1#8]

/-- The values R100 works out: of no byte, of single bytes, of the nine digits and of a request. -/
def Obligations.CrcWorkedValues : Prop :=
  crc16 [] = 0xFFFF#16 ∧ crc16 [0x00#8] = 0x40BF#16 ∧ crc16 [0x01#8] = 0x807E#16 ∧ crc16 [0xFF#8] = 0x00FF#16 ∧
  crc16 [0x31#8, 0x32#8, 0x33#8, 0x34#8, 0x35#8, 0x36#8, 0x37#8, 0x38#8, 0x39#8] = 0x4B37#16 ∧
  crc16 [0x01#8, 0x03#8, 0x00#8, 0x00#8, 0x00#8, 0x0A#8] = 0xCDC5#16

/-- R110: a byte received in phase `IDLE` or `RECEIVE` is stored, or lost with the overflow flag set when the buffer is
full; either way the silence count restarts and the phase is `RECEIVE`. -/
def Obligations.ReceivedByteIsStoredOrLost : Prop :=
  ∀ (s : State) (b : Byte) (rest : List Input), NextEvent s (.rxByte b) rest → s.phase ≠ .transmit →
    (s.rxLen < 256 →
      step s = .next { s with inputs := rest, rxBuf := s.rxBuf ++ [b], idleCnt := 0, phase := .receive }) ∧
    (256 ≤ s.rxLen →
      step s = .next { s with inputs := rest, rxOvf := true, idleCnt := 0, phase := .receive })

/-- R119: a byte received in phase `TRANSMIT` is discarded: no state changes and one `RxIgnored` is emitted. -/
def Obligations.ByteDuringResponseIsDiscarded : Prop :=
  ∀ (s : State) (b : Byte) (rest : List Input), NextEvent s (.rxByte b) rest → s.phase = .transmit →
    step s = .next { s with inputs := rest, outputs := s.outputs ++ [.rxIgnored b] }

/-- R111: a tick does nothing outside `RECEIVE`, counts in it, and the one that completes the silence ends the frame. -/
def Obligations.TickCountsTheSilence : Prop :=
  ∀ (s : State) (rest : List Input), NextEvent s .tick rest →
    (s.phase ≠ .receive → step s = .next { s with inputs := rest }) ∧
    (s.phase = .receive → s.idleCnt + 1 < s.cfg.t35Ticks →
      step s = .next { s with inputs := rest, idleCnt := s.idleCnt + 1 }) ∧
    (s.phase = .receive → s.cfg.t35Ticks ≤ s.idleCnt + 1 → step s = frameEnd { s with inputs := rest })

/-- R113, R114, R115, R205: at the frame end the first failing check of overflow, length, CRC and routing drops the
frame: the receive side is cleared, the phase is `IDLE`, one `Drop` is emitted, nothing is sent and no bank changes. -/
def Obligations.FramingChecksDropInOrder : Prop :=
  ∀ (s : State) (rest : List Input), FrameEndsNext s rest →
    (s.rxOvf = true → step s = .next ({ s with inputs := rest }.dropped .overflow)) ∧
    (s.rxOvf = false → s.rxLen < 4 → step s = .next ({ s with inputs := rest }.dropped .short)) ∧
    (s.rxOvf = false → 4 ≤ s.rxLen → crcOk s.rxBuf = false →
      step s = .next ({ s with inputs := rest }.dropped .crc)) ∧
    (s.rxOvf = false → 4 ≤ s.rxLen → crcOk s.rxBuf = true → route s.cfg (s.rxBuf.headD 0#8) = none →
      step s = .next ({ s with inputs := rest }.dropped .unrouted))

/-- A step runs the decoded request (R112, R116): at the end of an accepted frame whose PDU decodes to `i`, the step is
`exec i`, with the receive side consumed after it; where the PDU decodes to an exception that exception is taken. R112
clears the receive side before the checks: that it is consumed after the request is the model's order, log entry 6. Every
frame that passes the length and CRC checks holds a PDU in this sense. -/
def Obligations.StepRunsTheDecodedRequest : Prop :=
  (∀ (s : State) (rest : List Input) (u : Byte) (sl : Nat) (pdu : List Byte),
    FrameEndsNext s rest → HoldsRequest s u sl pdu →
    (∀ i, decode pdu = .ok i → step s = consumeAfter (exec i { s with inputs := rest })) ∧
    (∀ e, decode pdu = .error e →
      step s = .next (consumeFrame (takeException u (pdu.headD 0#8) e { s with inputs := rest })))) ∧
  (∀ f : List Byte, 4 ≤ f.length → crcOk f = true → ∃ u pdu, pdu ≠ [] ∧ f = rtuFrame u pdu)

/-- R118: `TxTake` does nothing outside `TRANSMIT`; in it the byte at `tx_pos` leaves, and with the last one the block
returns to `IDLE`. -/
def Obligations.TransmitterTakesTheNextByte : Prop :=
  ∀ (s : State) (rest : List Input), NextEvent s .txTake rest →
    (s.phase ≠ .transmit → step s = .next { s with inputs := rest }) ∧
    (∀ b, s.phase = .transmit → s.txBuf[s.txPos]? = some b →
      (s.txPos + 1 < s.txLen →
        step s = .next { s with inputs := rest, txPos := s.txPos + 1, outputs := s.outputs ++ [.txByte b] }) ∧
      (s.txLen ≤ s.txPos + 1 →
        step s = .next { s with inputs := rest, txBuf := [], txPos := 0, phase := .idle,
                                outputs := s.outputs ++ [.txByte b] }))

/-- R117, R118: the rest of a response leaves in index order, each byte once, when the transmitter takes as many bytes
as remain, and then the block is in `IDLE` with nothing left to send. -/
def Obligations.ResponseLeavesInOrder : Prop :=
  ∀ (s : State) (n : Nat) (rest : List Input),
    s.cfg.wf = true → s.phase = .transmit → s.txPos < s.txLen → n = s.txLen - s.txPos →
    s.inputs = List.replicate n Input.txTake ++ rest →
    runSteps n s = .next { s with inputs := rest, txBuf := [], txPos := 0, phase := .idle,
                                  outputs := s.outputs ++ (s.txBuf.drop s.txPos).map Output.txByte }

/-- R105, R110, R111: from `IDLE` the bytes of a frame of up to 256 bytes, with no silence between them, are stored
whole, and fewer ticks than the silence calls for leave the frame waiting. -/
def Obligations.FrameIsReceivedWhole : Prop :=
  ∀ (s : State) (f : List Byte) (n : Nat) (rest : List Input),
    s.Inv → s.phase = .idle → f ≠ [] → f.length ≤ 256 → n < s.cfg.t35Ticks →
    s.inputs = f.map Input.rxByte ++ List.replicate n Input.tick ++ rest →
    runSteps (f.length + n) s = .next { s with inputs := rest, rxBuf := f, idleCnt := n, phase := .receive }

/-- A request line, whole: from `IDLE`, the frame of any PDU from a routed unit, byte by byte and followed by the
silence, leaves the block with the banks, the observability events and the framed response that the spec's `Dispatch`
gives (R90, R104, R105, R112, R116, R133). -/
def Obligations.RequestLineIsAnswered : Prop :=
  ∀ (s : State) (u : Byte) (sl : Nat) (pdu : List Byte) (rest : List Input),
    s.Inv → s.phase = .idle → route s.cfg u = some sl → pdu ≠ [] → pdu.length ≤ 253 →
    s.inputs = (RequestLine.raw u pdu).events s.cfg ++ rest →
    runSteps ((RequestLine.raw u pdu).events s.cfg).length s =
      .next { s with inputs := rest, banks := (rawDispatch s sl pdu).2.1,
                     outputs := s.outputs ++ (rawDispatch s sl pdu).2.2,
                     txBuf := rtuFrame u (rawDispatch s sl pdu).1, txPos := 0, phase := .transmit }

/-- R132, with the bounds of R116: an accepted frame is always answered: a response frame of 5 to 255 bytes that passes
the CRC check, carries the received unit identifier and the request's function code but for bit 7; the receive side is
clear. -/
def Obligations.AcceptedFrameIsAnswered : Prop :=
  ∀ (s : State) (rest : List Input) (u : Byte) (sl : Nat) (pdu : List Byte),
    FrameEndsNext s rest → HoldsRequest s u sl pdu →
    ∃ t, step s = .next t ∧ t.phase = .transmit ∧ crcOk t.txBuf = true ∧ 5 ≤ t.txLen ∧ t.txLen ≤ 255 ∧ t.txPos = 0 ∧
      t.txBuf.head? = some u ∧ t.txBuf.getD 1 0#8 &&& 0x7F#8 = pdu.headD 0#8 &&& 0x7F#8 ∧
      t.rxBuf = [] ∧ t.rxOvf = false ∧ t.idleCnt = 0

/-- R116: at the end of an accepted frame the banks, the observability events and the response are those of the spec's
`Dispatch`; the response is framed for the received unit, has 5 to 255 bytes and is about to be sent; the receive side
is consumed and all else is as before. -/
def Obligations.AcceptedFrameIsDispatched : Prop :=
  ∀ (s : State) (rest : List Input) (u : Byte) (sl : Nat) (pdu : List Byte),
    FrameEndsNext s rest → HoldsRequest s u sl pdu →
    step s = .next { s with inputs := rest, rxBuf := [], rxOvf := false, idleCnt := 0,
                            banks := (rawDispatch s sl pdu).2.1, outputs := s.outputs ++ (rawDispatch s sl pdu).2.2,
                            txBuf := rtuFrame u (rawDispatch s sl pdu).1, txPos := 0, phase := .transmit } ∧
    (rawDispatch s sl pdu).2.2.length ≤ 1 ∧
    5 ≤ (rtuFrame u (rawDispatch s sl pdu).1).length ∧ (rtuFrame u (rawDispatch s sl pdu).1).length ≤ 255

/-- R102, R114: a frame that would be accepted, with any one of its bytes replaced by another value, is dropped for its
CRC. -/
def Obligations.OneCorruptByteDropsTheFrame : Prop :=
  ∀ (s : State) (rest : List Input) (f : List Byte) (j : Nat) (x : Byte),
    FrameEndsNext s rest → s.rxOvf = false → 4 ≤ f.length → crcOk f = true → j < f.length → x ≠ f.getD j 0#8 →
    s.rxBuf = f.set j x → step s = .next ({ s with inputs := rest }.dropped .crc)

end Frames

section Requests

/-- R133: decoding a PDU and running its request is the spec's `Dispatch` on the raw bytes: same response, same banks,
same observability events. -/
def Obligations.DispatchMatchesPseudocode : Prop :=
  ∀ (s : State) (u : Byte) (sl : Nat) (pdu : List Byte), Serves s u sl → pdu ≠ [] →
    dispatchPdu u pdu s =
      .next { s with banks := (rawDispatch s sl pdu).2.1, outputs := s.outputs ++ (rawDispatch s sl pdu).2.2,
                     txBuf := rtuFrame u (rawDispatch s sl pdu).1, txPos := 0, phase := .transmit }

/-- R151: `RDCO` in full: quantity out of 1 to 2000 is answered with 03, a range outside the coil bank with 02, else the
coils in the range are observed and sent, packed; a PDU of another length than 5 is `IllegalDataValue`. -/
def Obligations.RdcoReadsCoils : Prop :=
  (∀ (s : State) (u : Byte) (sl : Nat) (addr qty : Word), Memory.wf s.cfg s.banks = true → Serves s u sl →
    (qty.toNat = 0 ∨ 2000 < qty.toNat → exec (.rdco addr qty) s = .next (s.answered u [0x81#8, 3#8])) ∧
    (1 ≤ qty.toNat → qty.toNat ≤ 2000 → ¬ InBank s.cfg sl .co addr.toNat qty.toNat →
      exec (.rdco addr qty) s = .next (s.answered u [0x81#8, 2#8])) ∧
    (1 ≤ qty.toNat → qty.toNat ≤ 2000 → InBank s.cfg sl .co addr.toNat qty.toNat →
      ∃ v : List Bool, v.length = qty.toNat ∧
        (∀ i, i < qty.toNat → s.element sl .co (addr.toNat + i) = (v[i]?).map bitWord) ∧
        exec (.rdco addr qty) s =
          .next (State.answered
            { s with outputs := s.outputs ++ [.obs .read sl .co addr.toNat qty.toNat (.co v)] } u
            ([0x01#8, BitVec.ofNat 8 (ceil8 qty.toNat)] ++ packBits v)))) ∧
  (∀ p : List Byte, p.length ≠ 4 → decode (0x01#8 :: p) = .error .illegalDataValue)

/-- R152: `RDDI` in full, as R151 for the discrete inputs. -/
def Obligations.RddiReadsDiscreteInputs : Prop :=
  (∀ (s : State) (u : Byte) (sl : Nat) (addr qty : Word), Memory.wf s.cfg s.banks = true → Serves s u sl →
    (qty.toNat = 0 ∨ 2000 < qty.toNat → exec (.rddi addr qty) s = .next (s.answered u [0x82#8, 3#8])) ∧
    (1 ≤ qty.toNat → qty.toNat ≤ 2000 → ¬ InBank s.cfg sl .di addr.toNat qty.toNat →
      exec (.rddi addr qty) s = .next (s.answered u [0x82#8, 2#8])) ∧
    (1 ≤ qty.toNat → qty.toNat ≤ 2000 → InBank s.cfg sl .di addr.toNat qty.toNat →
      ∃ v : List Bool, v.length = qty.toNat ∧
        (∀ i, i < qty.toNat → s.element sl .di (addr.toNat + i) = (v[i]?).map bitWord) ∧
        exec (.rddi addr qty) s =
          .next (State.answered
            { s with outputs := s.outputs ++ [.obs .read sl .di addr.toNat qty.toNat (.di v)] } u
            ([0x02#8, BitVec.ofNat 8 (ceil8 qty.toNat)] ++ packBits v)))) ∧
  (∀ p : List Byte, p.length ≠ 4 → decode (0x02#8 :: p) = .error .illegalDataValue)

/-- R153: `RDHR` in full: quantity out of 1 to 125 is answered with 03, a range outside the holding-register bank with
02, else the words are observed and sent, high byte first. -/
def Obligations.RdhrReadsHoldingRegisters : Prop :=
  (∀ (s : State) (u : Byte) (sl : Nat) (addr qty : Word), Memory.wf s.cfg s.banks = true → Serves s u sl →
    (qty.toNat = 0 ∨ 125 < qty.toNat → exec (.rdhr addr qty) s = .next (s.answered u [0x83#8, 3#8])) ∧
    (1 ≤ qty.toNat → qty.toNat ≤ 125 → ¬ InBank s.cfg sl .hr addr.toNat qty.toNat →
      exec (.rdhr addr qty) s = .next (s.answered u [0x83#8, 2#8])) ∧
    (1 ≤ qty.toNat → qty.toNat ≤ 125 → InBank s.cfg sl .hr addr.toNat qty.toNat →
      ∃ v : List Word, v.length = qty.toNat ∧
        (∀ i, i < qty.toNat → s.element sl .hr (addr.toNat + i) = v[i]?) ∧
        exec (.rdhr addr qty) s =
          .next (State.answered
            { s with outputs := s.outputs ++ [.obs .read sl .hr addr.toNat qty.toNat (.hr v)] } u
            ([0x03#8, BitVec.ofNat 8 (2 * qty.toNat)] ++ packWords v)))) ∧
  (∀ p : List Byte, p.length ≠ 4 → decode (0x03#8 :: p) = .error .illegalDataValue)

/-- R154: `RDIR` in full, as R153 for the input registers. -/
def Obligations.RdirReadsInputRegisters : Prop :=
  (∀ (s : State) (u : Byte) (sl : Nat) (addr qty : Word), Memory.wf s.cfg s.banks = true → Serves s u sl →
    (qty.toNat = 0 ∨ 125 < qty.toNat → exec (.rdir addr qty) s = .next (s.answered u [0x84#8, 3#8])) ∧
    (1 ≤ qty.toNat → qty.toNat ≤ 125 → ¬ InBank s.cfg sl .ir addr.toNat qty.toNat →
      exec (.rdir addr qty) s = .next (s.answered u [0x84#8, 2#8])) ∧
    (1 ≤ qty.toNat → qty.toNat ≤ 125 → InBank s.cfg sl .ir addr.toNat qty.toNat →
      ∃ v : List Word, v.length = qty.toNat ∧
        (∀ i, i < qty.toNat → s.element sl .ir (addr.toNat + i) = v[i]?) ∧
        exec (.rdir addr qty) s =
          .next (State.answered
            { s with outputs := s.outputs ++ [.obs .read sl .ir addr.toNat qty.toNat (.ir v)] } u
            ([0x04#8, BitVec.ofNat 8 (2 * qty.toNat)] ++ packWords v)))) ∧
  (∀ p : List Byte, p.length ≠ 4 → decode (0x04#8 :: p) = .error .illegalDataValue)

/-- R171: `WRCO` in full: an address outside the coil bank is answered with 02; else the one coil is written, the write
is observed, the request is echoed, and every other element is as before; the PDU length and the value field are checked
at decoding (03). -/
def Obligations.WrcoWritesOneCoil : Prop :=
  (∀ (s : State) (u : Byte) (sl : Nat) (addr : Word) (bit : Bool), Memory.wf s.cfg s.banks = true → Serves s u sl →
    (¬ InBank s.cfg sl .co addr.toNat 1 → exec (.wrco addr bit) s = .next (s.answered u [0x85#8, 2#8])) ∧
    (InBank s.cfg sl .co addr.toNat 1 →
      ∃ m : Memory, Memory.wf s.cfg m = true ∧
        (∀ sl' k i, { s with banks := m }.element sl' k i =
          if sl' = sl ∧ k = .co ∧ i = addr.toNat then some (bitWord bit) else s.element sl' k i) ∧
        exec (.wrco addr bit) s =
          .next (State.answered
            { s with banks := m, outputs := s.outputs ++ [.obs .write sl .co addr.toNat 1 (.co [bit])] } u
            (encode (.wrco addr bit))))) ∧
  (∀ p : List Byte, p.length ≠ 4 → decode (0x05#8 :: p) = .error .illegalDataValue) ∧
  (∀ a1 a2 v1 v2 : Byte, be16 v1 v2 ≠ 0xFF00#16 → be16 v1 v2 ≠ 0x0000#16 →
    decode [0x05#8, a1, a2, v1, v2] = .error .illegalDataValue)

/-- R172: `WRHR` in full: an address outside the holding-register bank is answered with 02; else the one register is
written, the write is observed, the request is echoed, and every other element is as before. -/
def Obligations.WrhrWritesOneRegister : Prop :=
  (∀ (s : State) (u : Byte) (sl : Nat) (addr val : Word), Memory.wf s.cfg s.banks = true → Serves s u sl →
    (¬ InBank s.cfg sl .hr addr.toNat 1 → exec (.wrhr addr val) s = .next (s.answered u [0x86#8, 2#8])) ∧
    (InBank s.cfg sl .hr addr.toNat 1 →
      ∃ m : Memory, Memory.wf s.cfg m = true ∧
        (∀ sl' k i, { s with banks := m }.element sl' k i =
          if sl' = sl ∧ k = .hr ∧ i = addr.toNat then some val else s.element sl' k i) ∧
        exec (.wrhr addr val) s =
          .next (State.answered
            { s with banks := m, outputs := s.outputs ++ [.obs .write sl .hr addr.toNat 1 (.hr [val])] } u
            (encode (.wrhr addr val))))) ∧
  (∀ p : List Byte, p.length ≠ 4 → decode (0x06#8 :: p) = .error .illegalDataValue)

/-- R173: `WRMCO` in full: quantity out of 1 to 1968 is answered with 03, a range outside the coil bank with 02 and
nothing written; else `v[i]` is at `addr + i`, the write is observed, the response is the first five bytes of the
request, and every other element is as before. -/
def Obligations.WrmcoWritesCoils : Prop :=
  (∀ (s : State) (u : Byte) (sl : Nat) (addr : Word) (v : List Bool),
    Memory.wf s.cfg s.banks = true → Serves s u sl →
    (v.length = 0 ∨ 1968 < v.length → exec (.wrmco addr v) s = .next (s.answered u [0x8F#8, 3#8])) ∧
    (1 ≤ v.length → v.length ≤ 1968 → ¬ InBank s.cfg sl .co addr.toNat v.length →
      exec (.wrmco addr v) s = .next (s.answered u [0x8F#8, 2#8])) ∧
    (1 ≤ v.length → v.length ≤ 1968 → InBank s.cfg sl .co addr.toNat v.length →
      ∃ m : Memory, Memory.wf s.cfg m = true ∧
        (∀ sl' k i, { s with banks := m }.element sl' k i =
          if sl' = sl ∧ k = .co ∧ addr.toNat ≤ i ∧ i < addr.toNat + v.length then
            (v[i - addr.toNat]?).map bitWord
          else s.element sl' k i) ∧
        exec (.wrmco addr v) s =
          .next (State.answered
            { s with banks := m, outputs := s.outputs ++ [.obs .write sl .co addr.toNat v.length (.co v)] } u
            ((encode (.wrmco addr v)).take 5)))) ∧
  (∀ p : List Byte, p.length < 5 → decode (0x0F#8 :: p) = .error .illegalDataValue) ∧
  (∀ (a1 a2 q1 q2 bc : Byte) (d : List Byte),
    bc.toNat ≠ ceil8 (be16 q1 q2).toNat ∨ d.length ≠ bc.toNat →
    decode (0x0F#8 :: a1 :: a2 :: q1 :: q2 :: bc :: d) = .error .illegalDataValue)

/-- R174: `WRMHR` in full: quantity out of 1 to 123 is answered with 03, a range outside the holding-register bank with
02 and nothing written; else `v[i]` is at `addr + i`, the write is observed, the response is the first five bytes of
the request, and every other element is as before. -/
def Obligations.WrmhrWritesRegisters : Prop :=
  (∀ (s : State) (u : Byte) (sl : Nat) (addr : Word) (v : List Word),
    Memory.wf s.cfg s.banks = true → Serves s u sl →
    (v.length = 0 ∨ 123 < v.length → exec (.wrmhr addr v) s = .next (s.answered u [0x90#8, 3#8])) ∧
    (1 ≤ v.length → v.length ≤ 123 → ¬ InBank s.cfg sl .hr addr.toNat v.length →
      exec (.wrmhr addr v) s = .next (s.answered u [0x90#8, 2#8])) ∧
    (1 ≤ v.length → v.length ≤ 123 → InBank s.cfg sl .hr addr.toNat v.length →
      ∃ m : Memory, Memory.wf s.cfg m = true ∧
        (∀ sl' k i, { s with banks := m }.element sl' k i =
          if sl' = sl ∧ k = .hr ∧ addr.toNat ≤ i ∧ i < addr.toNat + v.length then v[i - addr.toNat]?
          else s.element sl' k i) ∧
        exec (.wrmhr addr v) s =
          .next (State.answered
            { s with banks := m, outputs := s.outputs ++ [.obs .write sl .hr addr.toNat v.length (.hr v)] } u
            ((encode (.wrmhr addr v)).take 5)))) ∧
  (∀ p : List Byte, p.length < 5 → decode (0x10#8 :: p) = .error .illegalDataValue) ∧
  (∀ (a1 a2 q1 q2 bc : Byte) (d : List Byte),
    bc.toNat ≠ 2 * (be16 q1 q2).toNat ∨ d.length ≠ bc.toNat →
    decode (0x10#8 :: a1 :: a2 :: q1 :: q2 :: bc :: d) = .error .illegalDataValue)

/-- The frame of every request (R22, R54, R170): the receive side, the flag, the silence count and the configuration
are untouched; at most one event is emitted, after those before; a read request leaves every element of every bank, and
a write request every element outside the range it addresses in the bank of its kind of the slave the frame is routed
to. -/
def Obligations.RequestsLeaveTheRest : Prop :=
  ∀ (i : Instr) (s t : State), Memory.wf s.cfg s.banks = true → exec i s = .next t →
    SameReceiveSide s t ∧ (∃ es, es.length ≤ 1 ∧ t.outputs = s.outputs ++ es) ∧
    ∀ sl k a,
      (∀ u k' a' n, Serves s u sl → writeRange i = some (k', a', n) → ¬ (k = k' ∧ a' ≤ a ∧ a < a' + n)) →
      t.element sl k a = s.element sl k a

/-- R136, R203, R206: a request PDU either completes with exactly one `Obs` event, or it raises an exception other than
04 whose response of 5 bytes is all its effect: the banks are as before and no event is emitted. -/
def Obligations.ExceptionLeavesNoTrace : Prop :=
  ∀ (s : State) (u : Byte) (sl : Nat) (pdu : List Byte), Serves s u sl → pdu ≠ [] →
    ∃ t, dispatchPdu u pdu s = .next t ∧
      ((∃ op k a n v, t.outputs = s.outputs ++ [.obs op sl k a n v] ∧
          t.txBuf.getD 1 0#8 = pdu.headD 0#8) ∨
       (∃ e : ExcCode, e ≠ .serverDeviceFailure ∧
          t = s.answered u [pdu.headD 0#8 ||| 0x80#8, e.code] ∧ t.txLen = 5))

/-- R134, R135: inside one request the first failing check of function code, value checks and address check decides the
code reported: 01, 03, 02; a request that passes all three is executed and observed. -/
def Obligations.FirstFailingCheckIsReported : Prop :=
  ∀ (s : State) (u : Byte) (sl : Nat) (fc : Byte) (payload : List Byte), Serves s u sl →
    (¬ SupportedCode fc →
      dispatchPdu u (fc :: payload) s = .next (s.answered u [fc ||| 0x80#8, 1#8])) ∧
    (SupportedCode fc → valueChecks (fc :: payload) = false →
      dispatchPdu u (fc :: payload) s = .next (s.answered u [fc ||| 0x80#8, 3#8])) ∧
    (SupportedCode fc → valueChecks (fc :: payload) = true →
      ¬ InBank s.cfg sl (codeKind fc) (rawField (fc :: payload) 1) (rawQuantity (fc :: payload)) →
      dispatchPdu u (fc :: payload) s = .next (s.answered u [fc ||| 0x80#8, 2#8])) ∧
    (SupportedCode fc → valueChecks (fc :: payload) = true →
      InBank s.cfg sl (codeKind fc) (rawField (fc :: payload) 1) (rawQuantity (fc :: payload)) →
      ∃ t op v, dispatchPdu u (fc :: payload) s = .next t ∧
        t.outputs = s.outputs ++ [.obs op sl (codeKind fc) (rawField (fc :: payload) 1) (rawQuantity (fc :: payload)) v])

/-- R131: in single mode every unit identifier is routed to slave 0; in multi mode to the slave that has it, and to none
where no slave has it. -/
def Obligations.RoutingFollowsTheMode : Prop :=
  ∀ (cfg : Config), cfg.wf = true → ∀ u : Byte,
    (cfg.mode = .single → route cfg u = some 0) ∧
    (cfg.mode = .multi →
      (∀ sl, route cfg u = some sl ↔ (cfg.slaves[sl]?).map SlaveConfig.unitId = some u) ∧
      (route cfg u = none ↔ ∀ c ∈ cfg.slaves, c.unitId ≠ u))

end Requests

section Banks

/-- R52: the bounds check, its sum in the naturals: address 0xFFFF with count 2 is out of range of every bank. -/
def Obligations.BoundsCheckDoesNotWrap : Prop :=
  ∀ (cfg : Config) (sl : Nat) (k : Kind),
    (∀ addr n, inRange cfg sl k addr n = true ↔ cfg.present sl k = true ∧ addr + n ≤ cfg.len sl k) ∧
    (cfg.wf = true → inRange cfg sl k 0xFFFF 2 = false)

/-- R53, R54: `MemRead` gives the addressed elements, lowest address first, or raises; `MemWrite` puts `v[i]` at
`addr + i` and leaves every other element, or raises and writes nothing; both keep the banks' lengths. -/
def Obligations.AccessPrimitives : Prop :=
  ∀ (s : State) (sl addr : Nat), Memory.wf s.cfg s.banks = true →
    (∀ k n, ¬ InBank s.cfg sl k addr n → memRead s sl k addr n = .error .illegalDataAddress) ∧
    (∀ k n, InBank s.cfg sl k addr n → ∃ v, memRead s sl k addr n = .ok v ∧ v.kind = k ∧ v.length = n ∧
      ∀ i, i < n → v.numbers[i]? = s.element sl k (addr + i)) ∧
    (∀ v, ¬ InBank s.cfg sl v.kind addr v.length → memWrite s sl addr v = .error .illegalDataAddress) ∧
    (∀ v, InBank s.cfg sl v.kind addr v.length →
      ∃ m, memWrite s sl addr v = .ok m ∧ Memory.wf s.cfg m = true ∧
        ∀ sl' k i, { s with banks := m }.element sl' k i =
          if sl' = sl ∧ k = v.kind ∧ addr ≤ i ∧ i < addr + v.length then v.numbers[i - addr]?
          else s.element sl' k i)

/-- R55: a range written and read at the same place gives exactly the written values in the same order. -/
def Obligations.ReadAfterWrite : Prop :=
  ∀ (s : State) (sl addr : Nat) (v : BankValues) (m : Memory), Memory.wf s.cfg s.banks = true →
    memWrite s sl addr v = .ok m → memRead { s with banks := m } sl v.kind addr v.length = .ok v

/-- Write then read, by requests (R55 with R153 and R174, R151 and R173): after a multiple write that was not refused, a
read request of the same range of the same slave, in any later state whose banks are those the write left, is answered
with the values written. -/
def Obligations.WrittenRangeReadsBack : Prop :=
  (∀ (s t r : State) (u u' : Byte) (sl : Nat) (addr qty : Word) (v : List Word),
    Memory.wf s.cfg s.banks = true → Serves s u sl → exec (.wrmhr addr v) s = .next t → t.outputs ≠ s.outputs →
    r.cfg = t.cfg → r.banks = t.banks → Serves r u' sl → qty.toNat = v.length →
    ∃ e, exec (.rdhr addr qty) r =
      .next (State.answered { r with outputs := r.outputs ++ [e] } u'
        ([0x03#8, BitVec.ofNat 8 (2 * v.length)] ++ packWords v)) ∧
      e = .obs .read sl .hr addr.toNat v.length (.hr v)) ∧
  (∀ (s t r : State) (u u' : Byte) (sl : Nat) (addr qty : Word) (v : List Bool),
    Memory.wf s.cfg s.banks = true → Serves s u sl → exec (.wrmco addr v) s = .next t → t.outputs ≠ s.outputs →
    r.cfg = t.cfg → r.banks = t.banks → Serves r u' sl → qty.toNat = v.length →
    ∃ e, exec (.rdco addr qty) r =
      .next (State.answered { r with outputs := r.outputs ++ [e] } u'
        ([0x01#8, BitVec.ofNat 8 (ceil8 v.length)] ++ packBits v)) ∧
      e = .obs .read sl .co addr.toNat v.length (.co v))

end Banks

section HostPort

/-- R191, R193: a host read of a legal slave answers the addressed elements or `AddressingFault`, in any phase; nothing
else changes and no `Obs` is emitted; a count of 0 at or below the end of a present bank answers no elements. -/
def Obligations.HostReadAnswers : Prop :=
  ∀ (s : State) (sl : Nat) (k : Kind) (addr count : Nat) (rest : List Input),
    Memory.wf s.cfg s.banks = true → NextEvent s (.hostRead sl k addr count) rest → sl < s.cfg.nslaves →
    (¬ InBank s.cfg sl k addr count →
      step s = .next { s with inputs := rest, outputs := s.outputs ++ [.hostResult .addressingFault] }) ∧
    (InBank s.cfg sl k addr count → ∃ v, v.kind = k ∧ v.length = count ∧
      (∀ i, i < count → v.numbers[i]? = s.element sl k (addr + i)) ∧
      step s = .next { s with inputs := rest, outputs := s.outputs ++ [.hostResult (.values v)] })

/-- R192, R193: a host write of a legal slave writes its values into the bank of their kind, any of the four, all or
nothing, in any phase; nothing else changes and no `Obs` is emitted. -/
def Obligations.HostWriteWritesAllOrNothing : Prop :=
  ∀ (s : State) (sl addr : Nat) (v : BankValues) (rest : List Input),
    Memory.wf s.cfg s.banks = true → NextEvent s (.hostWrite sl addr v) rest → sl < s.cfg.nslaves →
    (¬ InBank s.cfg sl v.kind addr v.length →
      step s = .next { s with inputs := rest, outputs := s.outputs ++ [.hostResult .addressingFault] }) ∧
    (InBank s.cfg sl v.kind addr v.length → ∃ m, Memory.wf s.cfg m = true ∧
      (∀ sl' k i, { s with banks := m }.element sl' k i =
        if sl' = sl ∧ k = v.kind ∧ addr ≤ i ∧ i < addr + v.length then v.numbers[i - addr]?
        else s.element sl' k i) ∧
      step s = .next { s with inputs := rest, banks := m, outputs := s.outputs ++ [.hostResult .ok] })

/-- What is refused (R11, and U11 and U12 of 93_implementation_defined.md; the model's way to refuse is log entries 11
and 12): every step under an ill-formed configuration, and a host access that names no slave context. -/
def Obligations.IllegalSetupAndHostEventsRefused : Prop :=
  (∀ s : State, s.cfg.wf = false → step s = .refused .illFormedConfiguration) ∧
  (∀ (s : State) (sl : Nat) (k : Kind) (addr count : Nat) (rest : List Input),
    NextEvent s (.hostRead sl k addr count) rest → s.cfg.nslaves ≤ sl → step s = .refused .illegalHostEvent) ∧
  (∀ (s : State) (sl addr : Nat) (v : BankValues) (rest : List Input),
    NextEvent s (.hostWrite sl addr v) rest → s.cfg.nslaves ≤ sl → step s = .refused .illegalHostEvent)

/-- R213, with R22: no step on a byte, a tick or the transmitter changes an element of the discrete inputs or of the
input registers, in any state; and the host port can write both. -/
def Obligations.ProtocolPortCannotWriteInputs : Prop :=
  (∀ (s t : State) (e : Input) (rest : List Input), NextEvent s e rest →
    (e = .tick ∨ e = .txTake ∨ ∃ b, e = .rxByte b) → step s = .next t →
    ∀ sl i, t.element sl .di i = s.element sl .di i ∧ t.element sl .ir i = s.element sl .ir i) ∧
  (∀ (s : State) (sl addr : Nat) (b : Bool) (w : Word) (rest : List Input),
    Memory.wf s.cfg s.banks = true →
    (NextEvent s (.hostWrite sl addr (.di [b])) rest → InBank s.cfg sl .di addr 1 →
      ∃ t, step s = .next t ∧ t.element sl .di addr = some (bitWord b)) ∧
    (NextEvent s (.hostWrite sl addr (.ir [w])) rest → InBank s.cfg sl .ir addr 1 →
      ∃ t, step s = .next t ∧ t.element sl .ir addr = some w))

end HostPort

section WholeMachine

/-- `Reset`, in any phase, leaves the block's state at its values after reset under the configuration, with no output
(R230, R231); two states of one configuration differ after it only in the record of outputs. That the events still
scheduled and the record of outputs, which are not the block's, stay as they are is the model's choice, log entry 22. -/
def Obligations.ResetRestoresInitialState : Prop :=
  (∀ (s : State) (rest : List Input), NextEvent s .reset rest →
    step s = .next { State.init s.cfg with inputs := rest, outputs := s.outputs }) ∧
  (∀ (s s' t t' : State) (rest : List Input), s.cfg = s'.cfg → NextEvent s .reset rest → NextEvent s' .reset rest →
    step s = .next t → step s' = .next t' → { t with outputs := [] } = { t' with outputs := [] })

/-- R37: the values after reset, under every configuration: every bank at `INIT`, lengths and counters 0, the flag
false, phase `IDLE`. -/
def Obligations.ResetValues : Prop :=
  (∀ (cfg : Config) (sl : Nat) (c : SlaveConfig), cfg.slaves[sl]? = some c → ∀ i,
    (State.init cfg).element sl .co i = (c.co.init[i]?).map bitWord ∧
    (State.init cfg).element sl .di i = (c.di.init[i]?).map bitWord ∧
    (State.init cfg).element sl .ir i = c.ir.init[i]? ∧ (State.init cfg).element sl .hr i = c.hr.init[i]?) ∧
  (∀ cfg : Config, (State.init cfg).rxLen = 0 ∧ (State.init cfg).rxOvf = false ∧ (State.init cfg).idleCnt = 0 ∧
    (State.init cfg).txLen = 0 ∧ (State.init cfg).txPos = 0 ∧ (State.init cfg).phase = .idle)

/-- The invariant of R33 holds in the state after reset under every well-formed configuration, so at `State.reset`,
whose configuration is the model's own choice (log entry 2). -/
def Obligations.ResetMeetsTheInvariant : Prop :=
  (∀ cfg : Config, cfg.wf = true → (State.init cfg).Inv) ∧ State.reset.Inv

/-- The invariant of R33 is kept by every step from every state that meets it. -/
def Obligations.StepKeepsTheInvariant : Prop :=
  ∀ s t : State, s.Inv → step s = .next t → t.Inv

/-- R33: every state reachable from reset, under every well-formed configuration and every schedule of events,
satisfies the invariant. -/
def Obligations.ReachableStatesMeetTheInvariant : Prop :=
  ∀ (cfg : Config), cfg.wf = true → ∀ s, Reachable cfg s → s.Inv

/-- Every state that meets the invariant has a next state on every legal event and on none (R15, R217): no run stops. -/
def Obligations.LegalEventsNeverStopTheBlock : Prop :=
  ∀ s : State, s.Inv → (∀ e ∈ s.inputs.head?, e.legal s.cfg = true) → ∃ t, step s = .next t

/-- R34: no step changes the configuration. -/
def Obligations.ConfigurationNeverChanges : Prop :=
  ∀ s t : State, step s = .next t → t.cfg = s.cfg

/-- R32: how each input event moves the phase, in states that meet the invariant. -/
def Obligations.PhaseMovesByTheTable : Prop :=
  ∀ (s t : State) (e : Input) (rest : List Input), s.Inv → NextEvent s e rest → step s = .next t →
    (∀ b, e = .rxByte b → t.phase = if s.phase = .transmit then .transmit else .receive) ∧
    (e = .tick → s.phase ≠ .receive → t.phase = s.phase) ∧
    (e = .tick → s.phase = .receive → s.idleCnt + 1 < s.cfg.t35Ticks → t.phase = .receive) ∧
    (e = .tick → s.phase = .receive → s.idleCnt + 1 = s.cfg.t35Ticks →
      (t.phase = .idle ∧ (∃ r, t.outputs = s.outputs ++ [.drop r]) ∧ ∀ u sl pdu, ¬ HoldsRequest s u sl pdu) ∨
      (t.phase = .transmit ∧ ∃ u sl pdu, HoldsRequest s u sl pdu)) ∧
    (e = .txTake → s.phase = .transmit → t.phase = if s.txPos + 1 < s.txLen then .transmit else .idle) ∧
    (e = .txTake → s.phase ≠ .transmit → t.phase = s.phase) ∧
    (∀ sl k a n, e = .hostRead sl k a n → t.phase = s.phase) ∧
    (∀ sl a v, e = .hostWrite sl a v → t.phase = s.phase) ∧
    (e = .reset → t.phase = .idle)

/-- The outputs are never read (R137, R205): what was emitted before changes nothing in what a step does. -/
def Obligations.OutputsAreNeverRead : Prop :=
  ∀ (s : State) (earlier : List Output),
    step { s with outputs := earlier ++ s.outputs } = withEarlierOutputs earlier (step s)

/-- R137, R193: an observability event is emitted only by the frame end of an accepted frame, at most one a step; no
host access, received byte, transmitted byte or reset emits one. -/
def Obligations.ObsOnlyAtAnAcceptedFrame : Prop :=
  ∀ s t : State, step s = .next t →
    ∃ es, t.outputs = s.outputs ++ es ∧ (es.filter Output.isObs).length ≤ 1 ∧
      ((∃ o ∈ es, Output.isObs o = true) →
        ∃ rest u sl pdu, FrameEndsNext s rest ∧ HoldsRequest s u sl pdu ∧ t.phase = .transmit)

/-- While no event arrives the block keeps all its state (R217). -/
def Obligations.NothingHappensWithoutAnEvent : Prop :=
  ∀ s : State, s.cfg.wf = true → s.inputs = [] → step s = .next s

/-- The events of one clock cycle are presented one after the other in the order `Reset`, `RxByte`, `Tick`, `TxTake`,
`HostWrite`, `HostRead` (R210). That all of them are kept when `Reset` is among them, the first of the two choices R210
allows, and that they come after those already scheduled, is the model's choice, log entry 17. -/
def Obligations.CycleEventsKeepTheFixedOrder : Prop :=
  ∀ es : List Input,
    (∀ s : State, s.presentCycle es = { s with inputs := s.inputs ++ cycleOrder es }) ∧
    (cycleOrder es).Perm es ∧ (cycleOrder es).Pairwise (fun a b => a.cycleRank ≤ b.cycleRank) ∧
    ∀ (b : Byte) (sl sl' : Nat) (k : Kind) (a a' n : Nat) (v : BankValues),
      cycleOrder [.hostRead sl k a n, .hostWrite sl' a' v, .txTake, .tick, .rxByte b, .reset] =
        [.reset, .rxByte b, .tick, .txTake, .hostWrite sl' a' v, .hostRead sl k a n]

end WholeMachine
end

