-- ==== Sys2Proof/Laws/State.lean ====
section
/-! SUPPORT. One lemma per field per named update of the state, true by rfl, so that no later proof unfolds one. -/

namespace Sys2Proof.Machine

@[simp] theorem emit_cfg (e : Output) (s : State) :
    (emit e s).cfg = s.cfg := rfl
@[simp] theorem emit_banks (e : Output) (s : State) :
    (emit e s).banks = s.banks := rfl
@[simp] theorem emit_rxBuf (e : Output) (s : State) :
    (emit e s).rxBuf = s.rxBuf := rfl
@[simp] theorem emit_rxOvf (e : Output) (s : State) :
    (emit e s).rxOvf = s.rxOvf := rfl
@[simp] theorem emit_idleCnt (e : Output) (s : State) :
    (emit e s).idleCnt = s.idleCnt := rfl
@[simp] theorem emit_txBuf (e : Output) (s : State) :
    (emit e s).txBuf = s.txBuf := rfl
@[simp] theorem emit_txPos (e : Output) (s : State) :
    (emit e s).txPos = s.txPos := rfl
@[simp] theorem emit_phase (e : Output) (s : State) :
    (emit e s).phase = s.phase := rfl
@[simp] theorem emit_inputs (e : Output) (s : State) :
    (emit e s).inputs = s.inputs := rfl
@[simp] theorem emit_outputs (e : Output) (s : State) :
    (emit e s).outputs = s.outputs ++ [e] := rfl

@[simp] theorem drop_cfg (r : DropReason) (s : State) :
    (drop r s).cfg = s.cfg := rfl
@[simp] theorem drop_banks (r : DropReason) (s : State) :
    (drop r s).banks = s.banks := rfl
@[simp] theorem drop_rxBuf (r : DropReason) (s : State) :
    (drop r s).rxBuf = s.rxBuf := rfl
@[simp] theorem drop_rxOvf (r : DropReason) (s : State) :
    (drop r s).rxOvf = s.rxOvf := rfl
@[simp] theorem drop_idleCnt (r : DropReason) (s : State) :
    (drop r s).idleCnt = s.idleCnt := rfl
@[simp] theorem drop_txBuf (r : DropReason) (s : State) :
    (drop r s).txBuf = s.txBuf := rfl
@[simp] theorem drop_txPos (r : DropReason) (s : State) :
    (drop r s).txPos = s.txPos := rfl
@[simp] theorem drop_phase (r : DropReason) (s : State) :
    (drop r s).phase = .idle := rfl
@[simp] theorem drop_inputs (r : DropReason) (s : State) :
    (drop r s).inputs = s.inputs := rfl
@[simp] theorem drop_outputs (r : DropReason) (s : State) :
    (drop r s).outputs = s.outputs ++ [.drop r] := rfl

@[simp] theorem respond_cfg (u : Byte) (r : Response) (s : State) :
    (respond u r s).cfg = s.cfg := rfl
@[simp] theorem respond_banks (u : Byte) (r : Response) (s : State) :
    (respond u r s).banks = s.banks := rfl
@[simp] theorem respond_rxBuf (u : Byte) (r : Response) (s : State) :
    (respond u r s).rxBuf = s.rxBuf := rfl
@[simp] theorem respond_rxOvf (u : Byte) (r : Response) (s : State) :
    (respond u r s).rxOvf = s.rxOvf := rfl
@[simp] theorem respond_idleCnt (u : Byte) (r : Response) (s : State) :
    (respond u r s).idleCnt = s.idleCnt := rfl
@[simp] theorem respond_txBuf (u : Byte) (r : Response) (s : State) :
    (respond u r s).txBuf = rtuFrame u (encodeResponse r) := rfl
@[simp] theorem respond_txPos (u : Byte) (r : Response) (s : State) :
    (respond u r s).txPos = 0 := rfl
@[simp] theorem respond_phase (u : Byte) (r : Response) (s : State) :
    (respond u r s).phase = .transmit := rfl
@[simp] theorem respond_inputs (u : Byte) (r : Response) (s : State) :
    (respond u r s).inputs = s.inputs := rfl
@[simp] theorem respond_outputs (u : Byte) (r : Response) (s : State) :
    (respond u r s).outputs = s.outputs := rfl

@[simp] theorem takeException_cfg (u fc : Byte) (e : ExcCode) (s : State) :
    (takeException u fc e s).cfg = s.cfg := rfl
@[simp] theorem takeException_banks (u fc : Byte) (e : ExcCode) (s : State) :
    (takeException u fc e s).banks = s.banks := rfl
@[simp] theorem takeException_rxBuf (u fc : Byte) (e : ExcCode) (s : State) :
    (takeException u fc e s).rxBuf = s.rxBuf := rfl
@[simp] theorem takeException_rxOvf (u fc : Byte) (e : ExcCode) (s : State) :
    (takeException u fc e s).rxOvf = s.rxOvf := rfl
@[simp] theorem takeException_idleCnt (u fc : Byte) (e : ExcCode) (s : State) :
    (takeException u fc e s).idleCnt = s.idleCnt := rfl
@[simp] theorem takeException_txBuf (u fc : Byte) (e : ExcCode) (s : State) :
    (takeException u fc e s).txBuf = rtuFrame u [fc ||| 0x80#8, e.code] := rfl
@[simp] theorem takeException_txPos (u fc : Byte) (e : ExcCode) (s : State) :
    (takeException u fc e s).txPos = 0 := rfl
@[simp] theorem takeException_phase (u fc : Byte) (e : ExcCode) (s : State) :
    (takeException u fc e s).phase = .transmit := rfl
@[simp] theorem takeException_inputs (u fc : Byte) (e : ExcCode) (s : State) :
    (takeException u fc e s).inputs = s.inputs := rfl
@[simp] theorem takeException_outputs (u fc : Byte) (e : ExcCode) (s : State) :
    (takeException u fc e s).outputs = s.outputs := rfl

@[simp] theorem clearOverflow_cfg (s : State) :
    (clearOverflow s).cfg = s.cfg := rfl
@[simp] theorem clearOverflow_banks (s : State) :
    (clearOverflow s).banks = s.banks := rfl
@[simp] theorem clearOverflow_rxBuf (s : State) :
    (clearOverflow s).rxBuf = s.rxBuf := rfl
@[simp] theorem clearOverflow_rxOvf (s : State) :
    (clearOverflow s).rxOvf = false := rfl
@[simp] theorem clearOverflow_idleCnt (s : State) :
    (clearOverflow s).idleCnt = s.idleCnt := rfl
@[simp] theorem clearOverflow_txBuf (s : State) :
    (clearOverflow s).txBuf = s.txBuf := rfl
@[simp] theorem clearOverflow_txPos (s : State) :
    (clearOverflow s).txPos = s.txPos := rfl
@[simp] theorem clearOverflow_phase (s : State) :
    (clearOverflow s).phase = s.phase := rfl
@[simp] theorem clearOverflow_inputs (s : State) :
    (clearOverflow s).inputs = s.inputs := rfl
@[simp] theorem clearOverflow_outputs (s : State) :
    (clearOverflow s).outputs = s.outputs := rfl

@[simp] theorem consumeFrame_cfg (s : State) :
    (consumeFrame s).cfg = s.cfg := rfl
@[simp] theorem consumeFrame_banks (s : State) :
    (consumeFrame s).banks = s.banks := rfl
@[simp] theorem consumeFrame_rxBuf (s : State) :
    (consumeFrame s).rxBuf = [] := rfl
@[simp] theorem consumeFrame_rxOvf (s : State) :
    (consumeFrame s).rxOvf = false := rfl
@[simp] theorem consumeFrame_idleCnt (s : State) :
    (consumeFrame s).idleCnt = 0 := rfl
@[simp] theorem consumeFrame_txBuf (s : State) :
    (consumeFrame s).txBuf = s.txBuf := rfl
@[simp] theorem consumeFrame_txPos (s : State) :
    (consumeFrame s).txPos = s.txPos := rfl
@[simp] theorem consumeFrame_phase (s : State) :
    (consumeFrame s).phase = s.phase := rfl
@[simp] theorem consumeFrame_inputs (s : State) :
    (consumeFrame s).inputs = s.inputs := rfl
@[simp] theorem consumeFrame_outputs (s : State) :
    (consumeFrame s).outputs = s.outputs := rfl

@[simp] theorem resetBlock_cfg (s : State) :
    (resetBlock s).cfg = s.cfg := rfl
@[simp] theorem resetBlock_banks (s : State) :
    (resetBlock s).banks = initialBanks s.cfg := rfl
@[simp] theorem resetBlock_rxBuf (s : State) :
    (resetBlock s).rxBuf = [] := rfl
@[simp] theorem resetBlock_rxOvf (s : State) :
    (resetBlock s).rxOvf = false := rfl
@[simp] theorem resetBlock_idleCnt (s : State) :
    (resetBlock s).idleCnt = 0 := rfl
@[simp] theorem resetBlock_txBuf (s : State) :
    (resetBlock s).txBuf = [] := rfl
@[simp] theorem resetBlock_txPos (s : State) :
    (resetBlock s).txPos = 0 := rfl
@[simp] theorem resetBlock_phase (s : State) :
    (resetBlock s).phase = .idle := rfl
@[simp] theorem resetBlock_inputs (s : State) :
    (resetBlock s).inputs = s.inputs := rfl
@[simp] theorem resetBlock_outputs (s : State) :
    (resetBlock s).outputs = s.outputs := rfl

@[simp] theorem placeFrame_cfg (u : Byte) (p : List Byte) (s : State) :
    (placeFrame u p s).cfg = s.cfg := rfl
@[simp] theorem placeFrame_banks (u : Byte) (p : List Byte) (s : State) :
    (placeFrame u p s).banks = s.banks := rfl
@[simp] theorem placeFrame_rxBuf (u : Byte) (p : List Byte) (s : State) :
    (placeFrame u p s).rxBuf = rtuFrame u p := rfl
@[simp] theorem placeFrame_rxOvf (u : Byte) (p : List Byte) (s : State) :
    (placeFrame u p s).rxOvf = false := rfl
@[simp] theorem placeFrame_idleCnt (u : Byte) (p : List Byte) (s : State) :
    (placeFrame u p s).idleCnt = s.cfg.t35Ticks - 1 := rfl
@[simp] theorem placeFrame_txBuf (u : Byte) (p : List Byte) (s : State) :
    (placeFrame u p s).txBuf = [] := rfl
@[simp] theorem placeFrame_txPos (u : Byte) (p : List Byte) (s : State) :
    (placeFrame u p s).txPos = 0 := rfl
@[simp] theorem placeFrame_phase (u : Byte) (p : List Byte) (s : State) :
    (placeFrame u p s).phase = .receive := rfl
@[simp] theorem placeFrame_inputs (u : Byte) (p : List Byte) (s : State) :
    (placeFrame u p s).inputs = .tick :: s.inputs := rfl
@[simp] theorem placeFrame_outputs (u : Byte) (p : List Byte) (s : State) :
    (placeFrame u p s).outputs = s.outputs := rfl

@[simp] theorem presentCycle_cfg (s : State) (es : List Input) :
    (s.presentCycle es).cfg = s.cfg := rfl
@[simp] theorem presentCycle_banks (s : State) (es : List Input) :
    (s.presentCycle es).banks = s.banks := rfl
@[simp] theorem presentCycle_rxBuf (s : State) (es : List Input) :
    (s.presentCycle es).rxBuf = s.rxBuf := rfl
@[simp] theorem presentCycle_rxOvf (s : State) (es : List Input) :
    (s.presentCycle es).rxOvf = s.rxOvf := rfl
@[simp] theorem presentCycle_idleCnt (s : State) (es : List Input) :
    (s.presentCycle es).idleCnt = s.idleCnt := rfl
@[simp] theorem presentCycle_txBuf (s : State) (es : List Input) :
    (s.presentCycle es).txBuf = s.txBuf := rfl
@[simp] theorem presentCycle_txPos (s : State) (es : List Input) :
    (s.presentCycle es).txPos = s.txPos := rfl
@[simp] theorem presentCycle_phase (s : State) (es : List Input) :
    (s.presentCycle es).phase = s.phase := rfl
@[simp] theorem presentCycle_inputs (s : State) (es : List Input) :
    (s.presentCycle es).inputs = s.inputs ++ cycleOrder es := rfl
@[simp] theorem presentCycle_outputs (s : State) (es : List Input) :
    (s.presentCycle es).outputs = s.outputs := rfl

@[simp] theorem init_cfg (c : Config) :
    (State.init c).cfg = c := rfl
@[simp] theorem init_banks (c : Config) :
    (State.init c).banks = initialBanks c := rfl
@[simp] theorem init_rxBuf (c : Config) :
    (State.init c).rxBuf = [] := rfl
@[simp] theorem init_rxOvf (c : Config) :
    (State.init c).rxOvf = false := rfl
@[simp] theorem init_idleCnt (c : Config) :
    (State.init c).idleCnt = 0 := rfl
@[simp] theorem init_txBuf (c : Config) :
    (State.init c).txBuf = [] := rfl
@[simp] theorem init_txPos (c : Config) :
    (State.init c).txPos = 0 := rfl
@[simp] theorem init_phase (c : Config) :
    (State.init c).phase = .idle := rfl
@[simp] theorem init_inputs (c : Config) :
    (State.init c).inputs = [] := rfl
@[simp] theorem init_outputs (c : Config) :
    (State.init c).outputs = [] := rfl

@[simp] theorem answered_eq_respond (s : State) (u : Byte) (r : Response) :
    s.answered u (encodeResponse r) = respond u r s := rfl

end Sys2Proof.Machine
end

