-- ==== Sys2Proof/Laws/Codec.lean ====
section
/-! SUPPORT. Small lemmas of the byte-order and bit-packing helpers, of the decoder's parts and of the frame, from which
the codec's claims are proved. -/

namespace Sys2Proof

theorem be16_toNat (h l : Byte) : (be16 h l).toNat = 256 * h.toNat + l.toNat := by
  have := h.isLt; have := l.isLt
  rw [be16, BitVec.toNat_append, ← Nat.shiftLeft_add_eq_or_of_lt l.isLt, Nat.shiftLeft_eq]; omega

theorem hi8_toNat (w : Word) : (hi8 w).toNat = w.toNat / 256 := by
  have := w.isLt
  simp only [hi8, BitVec.extractLsb'_toNat, Nat.shiftRight_eq_div_pow]; omega

theorem lo8_toNat (w : Word) : (lo8 w).toNat = w.toNat % 256 := by
  simp [lo8, BitVec.extractLsb'_toNat]

@[simp] theorem hi8_be16 (h l : Byte) : hi8 (be16 h l) = h := by
  apply BitVec.eq_of_toNat_eq
  have := h.isLt; have := l.isLt
  rw [hi8_toNat, be16_toNat]; omega

@[simp] theorem lo8_be16 (h l : Byte) : lo8 (be16 h l) = l := by
  apply BitVec.eq_of_toNat_eq
  have := h.isLt; have := l.isLt
  rw [lo8_toNat, be16_toNat]; omega

@[simp] theorem be16_hi8_lo8 (w : Word) : be16 (hi8 w) (lo8 w) = w := by
  apply BitVec.eq_of_toNat_eq
  rw [be16_toNat, hi8_toNat, lo8_toNat]; omega

theorem natOfBits_lt (l : List Bool) : natOfBits l < 2 ^ l.length := by
  induction l with
  | nil => simp [natOfBits]
  | cons b bs ih =>
    have : b.toNat ≤ 1 := Bool.toNat_le b
    simp only [natOfBits, List.length_cons, Nat.pow_succ]; omega

theorem natOfBits_testBit (l : List Bool) (i : Nat) : (natOfBits l).testBit i = l.getD i false := by
  induction l generalizing i with
  | nil => simp [natOfBits]
  | cons b bs ih =>
    cases i with
    | zero => cases b <;> simp [natOfBits, Nat.testBit_zero]
    | succ i =>
      rw [Nat.testBit_succ]
      have : (natOfBits (b :: bs)) / 2 = natOfBits bs := by
        have : b.toNat ≤ 1 := Bool.toNat_le b
        simp only [natOfBits]; omega
      rw [this, ih]; simp

/-- Bit `i` of a packed byte is the `i`-th bit given, and 0 where there is none. -/
theorem packByte_getLsbD (bits : List Bool) (i : Nat) :
    (packByte bits).getLsbD i = (decide (i < 8) && bits.getD i false) := by
  rw [packByte, BitVec.getLsbD_ofNat, natOfBits_testBit]
  by_cases h : i < 8
  · simp [h]
  · simp [h]

@[simp] theorem packBits_length (v : List Bool) : (packBits v).length = ceil8 v.length := by simp [packBits]

@[simp] theorem unpackBits_length (d : List Byte) (q : Nat) : (unpackBits d q).length = q := by simp [unpackBits]

@[simp] theorem unpackWords_length (d : List Byte) (q : Nat) : (unpackWords d q).length = q := by simp [unpackWords]

@[simp] theorem packWords_length (v : List Word) : (packWords v).length = 2 * v.length := by
  induction v with
  | nil => rfl
  | cons w ws ih =>
    simp only [packWords, List.flatMap_cons, List.length_append, List.length_cons, List.length_nil] at *; omega

theorem packWords_cons (w : Word) (ws : List Word) : packWords (w :: ws) = hi8 w :: lo8 w :: packWords ws := by
  simp [packWords]

/-- The bytes of word `i` stand at places `2*i` and `2*i + 1`. -/
theorem packWords_getD (v : List Word) (i : Nat) (h : i < v.length) :
    (packWords v).getD (2 * i) 0#8 = hi8 v[i] ∧ (packWords v).getD (2 * i + 1) 0#8 = lo8 v[i] := by
  induction v generalizing i with
  | nil => simp at h
  | cons w ws ih =>
    rw [packWords_cons]
    cases i with
    | zero => simp
    | succ i =>
      have h' : i < ws.length := by simpa using h
      have e : 2 * (i + 1) = 2 * i + 1 + 1 := by omega
      rw [e]
      simpa using ih i h'

/-- Byte `j` of the packed bits. -/
theorem packBits_getD (v : List Bool) (j : Nat) (h : j < ceil8 v.length) :
    (packBits v).getD j 0#8 = packByte (v.drop (8 * j)) := by
  simp [packBits, List.getD_eq_getElem?_getD, h]

theorem ceil8_bound (q : Nat) : q ≤ 8 * ceil8 q ∧ 8 * ceil8 q ≤ q + 7 := by
  unfold ceil8; omega

theorem div8_lt_ceil8 {i q : Nat} (h : i < q) : i / 8 < ceil8 q := by
  unfold ceil8; omega

@[simp] theorem coilBit_coilValue (b : Bool) : coilBit? (coilValue b) = some b := by cases b <;> decide

theorem coilBit_eq_some {v : Word} {b : Bool} (h : coilBit? v = some b) : v = coilValue b := by
  unfold coilBit? at h
  split at h
  · next hv => cases h; simp [hv, coilValue]
  · split at h
    · next hv => cases h; simp [hv, coilValue]
    · cases h

theorem decode_cons (fc : Byte) (p : List Byte) : decode (fc :: p) = decodePayload fc p := rfl

theorem decodeTwoFields_ok {p : List Byte} {a b : Word} (h : decodeTwoFields p = .ok (a, b)) :
    p = [hi8 a, lo8 a, hi8 b, lo8 b] := by
  unfold decodeTwoFields at h
  split at h
  · cases h; simp
  · cases h

theorem decodeBatch_ok {bcf : Nat → Nat} {p : List Byte} {a : Word} {q : Nat} {d : List Byte}
    (h : decodeBatch bcf p = .ok (a, q, d)) :
    q < 65536 ∧ ∃ bc : Byte, p = hi8 a :: lo8 a :: hi8 (BitVec.ofNat 16 q) :: lo8 (BitVec.ofNat 16 q) :: bc :: d ∧
      bc.toNat = bcf q ∧ d.length = bc.toNat := by
  unfold decodeBatch at h
  split at h
  · next b1 b2 b3 b4 bc data =>
    split at h
    · next hc =>
      cases h
      exact ⟨(be16 b3 b4).isLt, bc, by simp, hc.1, hc.2⟩
    · cases h
  · cases h

namespace Machine

@[simp] theorem crcBytes_length (c : Word) : (crcBytes c).length = 2 := rfl

@[simp] theorem rtuFrame_length (u : Byte) (p : List Byte) : (rtuFrame u p).length = p.length + 3 := by
  simp [rtuFrame]

theorem rtuFrame_head (u : Byte) (p : List Byte) : (rtuFrame u p).head? = some u := by simp [rtuFrame]

theorem crc16_append (m n : List Byte) : crc16 (m ++ n) = n.foldl crcByte (crc16 m) := by
  simp [crc16]

@[simp] theorem framePdu_rtuFrame (u : Byte) (p : List Byte) : framePdu (rtuFrame u p) = p := by
  simp [framePdu, rtuFrame]

/-- A frame of at least two bytes is its checked region and two more. -/
theorem frame_split {f : List Byte} (h : 2 ≤ f.length) :
    f = f.take (f.length - 2) ++ [f.getD (f.length - 2) 0#8, f.getD (f.length - 1) 0#8] := by
  obtain ⟨g, a, b, rfl⟩ : ∃ g a b, f = g ++ [a, b] := by
    refine ⟨f.take (f.length - 2), f[f.length - 2], f[f.length - 1], ?_⟩
    conv_lhs => rw [← List.take_append_drop (f.length - 2) f]
    congr 1
    rw [List.drop_eq_getElem_cons (by omega), List.drop_eq_getElem_cons (by omega)]
    have : f.length - 2 + 1 = f.length - 1 := by omega
    simp only [this]
    rw [List.drop_of_length_le (by omega)]
  simp

/-- The CRC check on a frame written as its checked region and its two CRC bytes. -/
theorem crcOk_append (m : List Byte) (lo hi : Byte) : crcOk (m ++ [lo, hi]) = (crc16 m == be16 hi lo) := by
  simp [crcOk]

end Machine

end Sys2Proof
end

