-- ==== Sys2Proof/Laws/Memory.lean ====
section
/-! SUPPORT. The banks as memory: reading and writing ranges, what one write changes, and that every memory operation
keeps the canonical form `Memory.wf`. -/

namespace Sys2Proof.Machine

section Ranges

variable {α β : Type}

theorem splice_length {l : List α} {addr : Nat} {v : List α} (h : addr + v.length ≤ l.length) :
    (splice l addr v).length = l.length := by
  simp only [splice, List.length_append, List.length_take, List.length_drop]; omega

theorem slice_length {l : List α} {addr n : Nat} (h : addr + n ≤ l.length) : (slice l addr n).length = n := by
  simp only [slice, List.length_take, List.length_drop]; omega

theorem slice_length_le (l : List α) (addr n : Nat) : (slice l addr n).length ≤ n := by
  simp only [slice, List.length_take]; omega

theorem slice_getElem? (l : List α) (addr n i : Nat) (h : i < n) : (slice l addr n)[i]? = l[addr + i]? := by
  simp [slice, h]

theorem map_slice (f : α → β) (l : List α) (addr n : Nat) : (slice l addr n).map f = slice (l.map f) addr n := by
  simp [slice, List.map_take, List.map_drop]

theorem map_splice (f : α → β) (l : List α) (addr : Nat) (v : List α) :
    (splice l addr v).map f = splice (l.map f) addr (v.map f) := by
  simp [splice, List.map_take, List.map_drop]

/-- One element after a range was written: the written value inside the range, the old one outside. -/
theorem splice_getElem? {l : List α} {addr : Nat} {v : List α} (h : addr + v.length ≤ l.length) (i : Nat) :
    (splice l addr v)[i]? = if addr ≤ i ∧ i < addr + v.length then v[i - addr]? else l[i]? := by
  have hl : (l.take addr).length = addr := by simp only [List.length_take]; omega
  unfold splice
  rw [List.append_assoc]
  by_cases h1 : i < addr
  · rw [List.getElem?_append_left (by omega), List.getElem?_take]
    simp [h1, Nat.not_le.mpr h1]
  · rw [List.getElem?_append_right (by omega), hl]
    by_cases h2 : i < addr + v.length
    · rw [List.getElem?_append_left (by omega)]
      simp [Nat.le_of_not_lt h1, h2]
    · rw [List.getElem?_append_right (by omega), List.getElem?_drop]
      simp only [h2, and_false, if_false]
      congr 1; omega

/-- A range written and read back at the same place (R55). -/
theorem slice_splice {l : List α} {addr : Nat} {v : List α} (h : addr + v.length ≤ l.length) :
    slice (splice l addr v) addr v.length = v := by
  have hl : (l.take addr).length = addr := by simp only [List.length_take]; omega
  simp [slice, splice, hl]

end Ranges

@[simp] theorem numbers_length (v : BankValues) : v.numbers.length = v.length := by
  cases v <;> simp [BankValues.numbers, BankValues.length]

theorem numbers_slice (v : BankValues) (addr n : Nat) : (v.slice addr n).numbers = slice v.numbers addr n := by
  cases v <;> simp [BankValues.numbers, BankValues.slice, map_slice]

@[simp] theorem slice_kind (v : BankValues) (addr n : Nat) : (v.slice addr n).kind = v.kind := by cases v <;> rfl

theorem slice_values_length {v : BankValues} {addr n : Nat} (h : addr + n ≤ v.length) : (v.slice addr n).length = n := by
  cases v <;> exact slice_length h

theorem slice_values_length_le (v : BankValues) (addr n : Nat) : (v.slice addr n).length ≤ n := by
  cases v <;> exact slice_length_le _ _ _

@[simp] theorem get_kind (b : SlaveBanks) (k : Kind) : (b.get k).kind = k := by cases k <;> rfl

@[simp] theorem bank_kind (m : Memory) (sl : Nat) (k : Kind) : (Memory.bank m sl k).kind = k := by
  unfold Memory.bank; split
  · simp
  · cases k <;> rfl

/-- Two value sequences of one kind with the same numbers are the same. -/
theorem numbers_ext {v w : BankValues} (hk : v.kind = w.kind) (h : v.numbers = w.numbers) : v = w := by
  have inj : Function.Injective bitWord := by decide
  cases v <;> cases w <;> first | (cases hk; done) | skip
  all_goals simp only [BankValues.numbers] at h
  · rw [List.map_injective_iff.mpr inj h]
  · rw [List.map_injective_iff.mpr inj h]
  · rw [h]
  · rw [h]

/-- A bank after a write to its slave: the range replaced if it is the bank of the values' kind, else as before. -/
theorem write_get (b : SlaveBanks) (addr : Nat) (v : BankValues) (k : Kind) :
    ((b.write addr v).get k).numbers =
      if k = v.kind then splice (b.get k).numbers addr v.numbers else (b.get k).numbers := by
  cases v <;> cases k <;>
    simp [SlaveBanks.write, SlaveBanks.get, BankValues.kind, BankValues.numbers, map_splice]

theorem banksWf_get {cs : List SlaveConfig} {m : Memory} (h : banksWf cs m = true) (sl : Nat) :
    (∃ c b, cs[sl]? = some c ∧ m[sl]? = some b ∧ SlaveBanks.wf c b = true) ∨ (cs[sl]? = none ∧ m[sl]? = none) := by
  induction cs generalizing m sl with
  | nil => cases m with
    | nil => simp
    | cons => simp [banksWf] at h
  | cons c cs ih => cases m with
    | nil => simp [banksWf] at h
    | cons b bs =>
      simp only [banksWf, Bool.and_eq_true] at h
      cases sl with
      | zero => exact .inl ⟨c, b, by simp, by simp, h.1⟩
      | succ n => simpa using ih h.2 n

theorem slaveBanks_wf_length {c : SlaveConfig} {b : SlaveBanks} (h : SlaveBanks.wf c b = true) (k : Kind) :
    (b.get k).length = c.len k := by
  simp only [SlaveBanks.wf, Bool.and_eq_true, decide_eq_true_eq] at h
  cases k <;> simp [SlaveBanks.get, BankValues.length, SlaveConfig.len, h]

/-- Every bank has the length the configuration gives it (R33). -/
theorem bank_length {cfg : Config} {m : Memory} (h : Memory.wf cfg m = true) (sl : Nat) (k : Kind) :
    (Memory.bank m sl k).length = cfg.len sl k := by
  unfold Memory.bank Config.len
  rcases banksWf_get h sl with ⟨c, b, hc, hb, hw⟩ | ⟨hc, hb⟩
  · rw [hc, hb]; exact slaveBanks_wf_length hw k
  · rw [hc, hb]; cases k <;> rfl

theorem inRange_iff (cfg : Config) (sl : Nat) (k : Kind) (addr n : Nat) :
    inRange cfg sl k addr n = true ↔ InBank cfg sl k addr n := by
  simp [inRange]

theorem present_lt {cfg : Config} {sl : Nat} {k : Kind} (h : cfg.present sl k = true) : sl < cfg.nslaves := by
  unfold Config.present at h
  split at h
  · next hc => exact (List.getElem?_eq_some_iff.mp hc).1
  · cases h

/-- The contents of a bank after a write to one slave. -/
theorem bank_modify_numbers (m : Memory) (sl addr : Nat) (v : BankValues) (sl' : Nat) (k : Kind)
    (h : sl < m.length) :
    (Memory.bank (m.modify sl fun b => b.write addr v) sl' k).numbers =
      if sl' = sl ∧ k = v.kind then splice (Memory.bank m sl' k).numbers addr v.numbers
      else (Memory.bank m sl' k).numbers := by
  unfold Memory.bank
  rw [List.getElem?_modify]
  by_cases hs : sl = sl'
  · subst hs
    rw [List.getElem?_eq_getElem h]
    simp [write_get]
  · simp [hs, Ne.symm hs]

theorem banksWf_length {cs : List SlaveConfig} {m : Memory} (h : banksWf cs m = true) : m.length = cs.length := by
  induction cs generalizing m with
  | nil => cases m <;> simp_all [banksWf]
  | cons c cs ih => cases m with
    | nil => simp [banksWf] at h
    | cons b bs => simp only [banksWf, Bool.and_eq_true] at h; simp [ih h.2]

/-- The banks as a whole are well formed when they are slave by slave. -/
theorem banksWf_of_get {cs : List SlaveConfig} {m : Memory} (hl : m.length = cs.length)
    (h : ∀ (sl : Nat) (c : SlaveConfig) (b : SlaveBanks), cs[sl]? = some c → m[sl]? = some b → SlaveBanks.wf c b = true) :
    banksWf cs m = true := by
  induction cs generalizing m with
  | nil => cases m <;> simp_all [banksWf]
  | cons c cs ih => cases m with
    | nil => simp at hl
    | cons b bs =>
      simp only [banksWf, Bool.and_eq_true]
      exact ⟨h 0 c b (by simp) (by simp), ih (by simpa using hl) fun sl c' b' hc hb => h (sl + 1) c' b' (by simpa using hc) (by simpa using hb)⟩

theorem write_wf {c : SlaveConfig} {b : SlaveBanks} {addr : Nat} {v : BankValues} (hb : SlaveBanks.wf c b = true)
    (h : addr + v.length ≤ c.len v.kind) : SlaveBanks.wf c (b.write addr v) = true := by
  simp only [SlaveBanks.wf, Bool.and_eq_true, decide_eq_true_eq] at hb
  obtain ⟨⟨⟨h1, h2⟩, h3⟩, h4⟩ := hb
  cases v with
  | co x =>
    have : (splice b.co addr x).length = b.co.length := splice_length (by rw [h1]; exact h)
    simp [SlaveBanks.wf, SlaveBanks.write, this, h1, h2, h3, h4]
  | di x =>
    have : (splice b.di addr x).length = b.di.length := splice_length (by rw [h2]; exact h)
    simp [SlaveBanks.wf, SlaveBanks.write, this, h1, h2, h3, h4]
  | ir x =>
    have : (splice b.ir addr x).length = b.ir.length := splice_length (by rw [h3]; exact h)
    simp [SlaveBanks.wf, SlaveBanks.write, this, h1, h2, h3, h4]
  | hr x =>
    have : (splice b.hr addr x).length = b.hr.length := splice_length (by rw [h4]; exact h)
    simp [SlaveBanks.wf, SlaveBanks.write, this, h1, h2, h3, h4]

/-- Writing inside a bank keeps the canonical form. -/
theorem modify_wf {cfg : Config} {m : Memory} {sl addr : Nat} {v : BankValues} (hm : Memory.wf cfg m = true)
    (h : InBank cfg sl v.kind addr v.length) : Memory.wf cfg (m.modify sl fun b => b.write addr v) = true := by
  apply banksWf_of_get
  · rw [List.length_modify]; exact banksWf_length hm
  · intro j c b hc hb
    rw [List.getElem?_modify] at hb
    rcases banksWf_get hm j with ⟨c', b', hc', hb', hw⟩ | ⟨hn, _⟩
    · rw [hc'] at hc; rw [hb'] at hb
      cases hc
      by_cases hs : sl = j
      · simp only [hs, if_true, Option.map_eq_map, Option.map_some, Option.some.injEq] at hb
        subst hb
        refine write_wf hw ?_
        have := h.2
        rw [hs, Config.len, hc'] at this
        exact this
      · simp only [hs, if_false, Option.map_eq_map, Option.map_some, Option.some.injEq] at hb
        rw [← hb]; exact hw
    · rw [hn] at hc; cases hc

/-- Everything `MemRead` can answer (R53). -/
theorem memRead_cases (s : State) (sl : Nat) (k : Kind) (addr n : Nat) :
    (InBank s.cfg sl k addr n ∧ memRead s sl k addr n = .ok ((Memory.bank s.banks sl k).slice addr n)) ∨
      (¬ InBank s.cfg sl k addr n ∧ memRead s sl k addr n = .error .illegalDataAddress) := by
  unfold memRead
  by_cases h : inRange s.cfg sl k addr n = true
  · exact .inl ⟨(inRange_iff ..).mp h, by simp [h]⟩
  · exact .inr ⟨fun c => h ((inRange_iff ..).mpr c), by simp [h]⟩

/-- Everything `MemWrite` can answer (R54). -/
theorem memWrite_cases (s : State) (sl addr : Nat) (v : BankValues) :
    (InBank s.cfg sl v.kind addr v.length ∧ memWrite s sl addr v = .ok (s.banks.modify sl fun b => b.write addr v)) ∨
      (¬ InBank s.cfg sl v.kind addr v.length ∧ memWrite s sl addr v = .error .illegalDataAddress) := by
  unfold memWrite
  by_cases h : inRange s.cfg sl v.kind addr v.length = true
  · exact .inl ⟨(inRange_iff ..).mp h, by simp [h]⟩
  · exact .inr ⟨fun c => h ((inRange_iff ..).mpr c), by simp [h]⟩

/-- `MemWrite` keeps the canonical form of the banks. -/
theorem memWrite_keeps_wf {s : State} {sl addr : Nat} {v : BankValues} {m : Memory}
    (hm : Memory.wf s.cfg s.banks = true) (h : memWrite s sl addr v = .ok m) : Memory.wf s.cfg m = true := by
  rcases memWrite_cases s sl addr v with ⟨hi, he⟩ | ⟨_, he⟩ <;> rw [he] at h <;> cases h
  exact modify_wf hm hi

/-- The initial contents have the canonical form under a well-formed configuration (R11, R37). -/
theorem initialBanks_wf {cfg : Config} (h : cfg.wf = true) : Memory.wf cfg (initialBanks cfg) = true := by
  have hs : ∀ c ∈ cfg.slaves, c.wf = true := by
    simp only [Config.wf, Bool.and_eq_true, List.all_eq_true] at h; exact h.2
  refine banksWf_of_get (by simp [initialBanks]) fun sl c b hc hb => ?_
  have hb' : initialSlaveBanks c = b := by simpa [initialBanks, hc] using hb
  have hw := hs c (List.mem_of_getElem? hc)
  simp only [SlaveConfig.wf, BankConfig.wf, Bool.and_eq_true, decide_eq_true_eq] at hw
  subst hb'
  simp [SlaveBanks.wf, initialSlaveBanks, hw]

/-- The reset memory has the canonical form. -/
theorem reset_banks_wf : Memory.wf State.reset.cfg State.reset.banks = true := by decide

end Sys2Proof.Machine
end

