-- ==== Sys2Proof/Laws/Ops.lean ====
section
/-! SUPPORT. What the shared operations can do, said once: routing, the request handlers, `serve`, `exec`, the frame end
and a step. -/

namespace Sys2Proof.Machine

theorem target_of_serves {s : State} {u : Byte} {sl : Nat} (h : Serves s u sl) : s.target = .ok (u, sl) := by
  obtain ⟨hu, hr⟩ := h
  unfold State.target
  split
  · next hn => simp [hn] at hu
  · next x xs hx =>
    simp only [hx, List.head?_cons, Option.some.injEq] at hu
    subst hu; simp [hr]

theorem serves_of_target {s : State} {u : Byte} {sl : Nat} (h : s.target = .ok (u, sl)) : Serves s u sl := by
  unfold State.target at h
  split at h
  · cases h
  · next x xs hx =>
    split at h
    · next hr => cases h; exact ⟨by simp [hx], hr⟩
    · cases h

/-- The request held in the receive buffer is the one `exec` serves. -/
theorem HoldsRequest.serves {s : State} {u : Byte} {sl : Nat} {p : List Byte} (h : HoldsRequest s u sl p) :
    Serves s u sl := ⟨by rw [h.2.1]; exact rtuFrame_head u p, h.2.2.2⟩

/-- Every way `serve` can end. -/
theorem serve_cases (fc : Byte) (f : Nat → Except ExcCode Reply) (s : State) :
    (∃ r, s.target = .error r ∧ serve fc f s = .next (drop r s)) ∨
    (∃ u sl e, s.target = .ok (u, sl) ∧ f sl = .error e ∧ serve fc f s = .next (takeException u fc e s)) ∨
    (∃ u sl r, s.target = .ok (u, sl) ∧ f sl = .ok r ∧
      serve fc f s = .next (respond u r.response (emit r.obs { s with banks := r.banks }))) := by
  unfold serve
  split
  · next r hr => exact .inl ⟨r, hr, rfl⟩
  · next u sl hu =>
    split
    · next e he => exact .inr (.inl ⟨u, sl, e, hu, he, rfl⟩)
    · next r hr => exact .inr (.inr ⟨u, sl, r, hu, hr, rfl⟩)

/-- The handler each request runs (R133). -/
def handlerOf (i : Instr) (s : State) : Nat → Except ExcCode Reply :=
  match i with
  | .rdco addr qty => readRequest 0x01#8 .co addr qty s
  | .rddi addr qty => readRequest 0x02#8 .di addr qty s
  | .rdhr addr qty => readRequest 0x03#8 .hr addr qty s
  | .rdir addr qty => readRequest 0x04#8 .ir addr qty s
  | .wrco addr bit => writeRequest addr (.co [bit]) (.single 0x05#8 addr (coilValue bit)) s
  | .wrhr addr val => writeRequest addr (.hr [val]) (.single 0x06#8 addr val) s
  | .wrmco addr bits =>
    batchWriteRequest maxWrBits addr (.co bits) (.batch 0x0F#8 addr (BitVec.ofNat 16 bits.length)) s
  | .wrmhr addr vals =>
    batchWriteRequest maxWrRegs addr (.hr vals) (.batch 0x10#8 addr (BitVec.ofNat 16 vals.length)) s

theorem exec_eq_serve (i : Instr) (s : State) : exec i s = serve i.fc (handlerOf i s) s := by cases i <;> rfl

/-- Every request completes: a request never stops the machine. -/
theorem exec_next (i : Instr) (s : State) : ∃ t, exec i s = .next t := by
  rw [exec_eq_serve]
  rcases serve_cases i.fc (handlerOf i s) s with ⟨_, _, h⟩ | ⟨_, _, _, _, _, h⟩ | ⟨_, _, _, _, _, h⟩ <;> exact ⟨_, h⟩

/-- Everything a request can do. -/
theorem exec_cases {i : Instr} {s t : State} (h : exec i s = .next t) :
    (∃ r, s.target = .error r ∧ t = drop r s) ∨
    (∃ u sl e, s.target = .ok (u, sl) ∧ handlerOf i s sl = .error e ∧ t = takeException u i.fc e s) ∨
    (∃ u sl r, s.target = .ok (u, sl) ∧ handlerOf i s sl = .ok r ∧
      t = respond u r.response (emit r.obs { s with banks := r.banks })) := by
  rw [exec_eq_serve] at h
  rcases serve_cases i.fc (handlerOf i s) s with ⟨r, a, e⟩ | ⟨u, sl, x, a, b, e⟩ | ⟨u, sl, r, a, b, e⟩ <;>
    rw [e] at h <;> cases h
  · exact .inl ⟨r, a, rfl⟩
  · exact .inr (.inl ⟨u, sl, x, a, b, rfl⟩)
  · exact .inr (.inr ⟨u, sl, r, a, b, rfl⟩)

theorem readRequest_cases (fc : Byte) (k : Kind) (a q : Word) (s : State) (sl : Nat) :
    (¬ (1 ≤ q.toNat ∧ q.toNat ≤ readLimit k) ∧ readRequest fc k a q s sl = .error .illegalDataValue) ∨
    ((1 ≤ q.toNat ∧ q.toNat ≤ readLimit k) ∧ ¬ InBank s.cfg sl k a.toNat q.toNat ∧
      readRequest fc k a q s sl = .error .illegalDataAddress) ∨
    ((1 ≤ q.toNat ∧ q.toNat ≤ readLimit k) ∧ InBank s.cfg sl k a.toNat q.toNat ∧
      readRequest fc k a q s sl =
        .ok ⟨.data fc (BitVec.ofNat 8 (readByteCount k q.toNat)) ((Memory.bank s.banks sl k).slice a.toNat q.toNat).pack,
          s.banks, .obs .read sl k a.toNat q.toNat ((Memory.bank s.banks sl k).slice a.toNat q.toNat)⟩) := by
  unfold readRequest
  by_cases hq : 1 ≤ q.toNat ∧ q.toNat ≤ readLimit k
  · rcases memRead_cases s sl k a.toNat q.toNat with ⟨hi, he⟩ | ⟨hi, he⟩
    · exact .inr (.inr ⟨hq, hi, by simp [quantityLegal, hq, he]⟩)
    · exact .inr (.inl ⟨hq, hi, by simp [quantityLegal, hq, he]⟩)
  · exact .inl ⟨hq, by simp [quantityLegal, hq]⟩

theorem writeRequest_cases (a : Word) (v : BankValues) (p : Response) (s : State) (sl : Nat) :
    (¬ InBank s.cfg sl v.kind a.toNat v.length ∧ writeRequest a v p s sl = .error .illegalDataAddress) ∨
    (InBank s.cfg sl v.kind a.toNat v.length ∧
      writeRequest a v p s sl =
        .ok ⟨p, s.banks.modify sl fun b => b.write a.toNat v, .obs .write sl v.kind a.toNat v.length v⟩) := by
  unfold writeRequest
  rcases memWrite_cases s sl a.toNat v with ⟨hi, he⟩ | ⟨hi, he⟩
  · exact .inr ⟨hi, by simp [he]⟩
  · exact .inl ⟨hi, by simp [he]⟩

theorem batchWriteRequest_cases (limit : Nat) (a : Word) (v : BankValues) (p : Response) (s : State) (sl : Nat) :
    (¬ (1 ≤ v.length ∧ v.length ≤ limit) ∧ batchWriteRequest limit a v p s sl = .error .illegalDataValue) ∨
    ((1 ≤ v.length ∧ v.length ≤ limit) ∧ batchWriteRequest limit a v p s sl = writeRequest a v p s sl) := by
  unfold batchWriteRequest
  by_cases hq : 1 ≤ v.length ∧ v.length ≤ limit
  · exact .inr ⟨hq, by simp [quantityLegal, hq]⟩
  · exact .inl ⟨hq, by simp [quantityLegal, hq]⟩

/-- A handler that succeeds reads a range of a bank and writes nothing, or writes a range of coils or holding
registers; either range lies inside its bank (R22, R52). -/
theorem handlerOf_ok {i : Instr} {s : State} {sl : Nat} {r : Reply} (h : handlerOf i s sl = .ok r) :
    (∃ k addr n, InBank s.cfg sl k addr n ∧ r.banks = s.banks ∧
      r.obs = .obs .read sl k addr n ((Memory.bank s.banks sl k).slice addr n)) ∨
    (∃ addr v, (v.kind = .co ∨ v.kind = .hr) ∧ InBank s.cfg sl v.kind addr v.length ∧
      r.banks = (s.banks.modify sl fun b => b.write addr v) ∧
      r.obs = .obs .write sl v.kind addr v.length v) := by
  have read : ∀ fc k a q, readRequest fc k a q s sl = .ok r →
      ∃ k addr n, InBank s.cfg sl k addr n ∧ r.banks = s.banks ∧
        r.obs = .obs .read sl k addr n ((Memory.bank s.banks sl k).slice addr n) := fun fc k a q hr => by
    rcases readRequest_cases fc k a q s sl with ⟨_, e⟩ | ⟨_, _, e⟩ | ⟨_, hi, e⟩ <;> rw [e] at hr <;> cases hr
    exact ⟨k, _, _, hi, rfl, rfl⟩
  have write : ∀ a v p, (v.kind = .co ∨ v.kind = .hr) → writeRequest a v p s sl = .ok r →
      ∃ addr v, (v.kind = .co ∨ v.kind = .hr) ∧ InBank s.cfg sl v.kind addr v.length ∧
        r.banks = (s.banks.modify sl fun b => b.write addr v) ∧
        r.obs = .obs .write sl v.kind addr v.length v := fun a v p hk hr => by
    rcases writeRequest_cases a v p s sl with ⟨_, e⟩ | ⟨hi, e⟩ <;> rw [e] at hr <;> cases hr
    exact ⟨_, v, hk, hi, rfl, rfl⟩
  have batch : ∀ l a v p, (v.kind = .co ∨ v.kind = .hr) → batchWriteRequest l a v p s sl = .ok r →
      ∃ addr v, (v.kind = .co ∨ v.kind = .hr) ∧ InBank s.cfg sl v.kind addr v.length ∧
        r.banks = (s.banks.modify sl fun b => b.write addr v) ∧
        r.obs = .obs .write sl v.kind addr v.length v := fun l a v p hk hr => by
    rcases batchWriteRequest_cases l a v p s sl with ⟨_, e⟩ | ⟨_, e⟩ <;> rw [e] at hr
    · cases hr
    · exact write a v p hk hr
  cases i with
  | rdco a q => exact .inl (read _ _ _ _ h)
  | rddi a q => exact .inl (read _ _ _ _ h)
  | rdhr a q => exact .inl (read _ _ _ _ h)
  | rdir a q => exact .inl (read _ _ _ _ h)
  | wrco a b => exact .inr (write _ _ _ (.inl rfl) h)
  | wrhr a v => exact .inr (write _ _ _ (.inr rfl) h)
  | wrmco a bs => exact .inr (batch _ _ _ _ (.inl rfl) h)
  | wrmhr a vs => exact .inr (batch _ _ _ _ (.inr rfl) h)

/-- The only exceptions a decoded request raises are 03 and 02 (R202, R204). -/
theorem handlerOf_error {i : Instr} {s : State} {sl : Nat} {e : ExcCode} (h : handlerOf i s sl = .error e) :
    e = .illegalDataValue ∨ e = .illegalDataAddress := by
  have read : ∀ fc k a q, readRequest fc k a q s sl = .error e → e = .illegalDataValue ∨ e = .illegalDataAddress := by
    intro fc k a q hr
    rcases readRequest_cases fc k a q s sl with ⟨_, x⟩ | ⟨_, _, x⟩ | ⟨_, _, x⟩ <;> rw [x] at hr <;> cases hr <;> simp
  have write : ∀ a v p, writeRequest a v p s sl = .error e → e = .illegalDataValue ∨ e = .illegalDataAddress := by
    intro a v p hr
    rcases writeRequest_cases a v p s sl with ⟨_, x⟩ | ⟨_, x⟩ <;> rw [x] at hr <;> cases hr
    simp
  have batch : ∀ l a v p, batchWriteRequest l a v p s sl = .error e →
      e = .illegalDataValue ∨ e = .illegalDataAddress := by
    intro l a v p hr
    rcases batchWriteRequest_cases l a v p s sl with ⟨_, x⟩ | ⟨_, x⟩ <;> rw [x] at hr
    · cases hr; simp
    · exact write a v p hr
  cases i with
  | rdco a q => exact read _ _ _ _ h
  | rddi a q => exact read _ _ _ _ h
  | rdhr a q => exact read _ _ _ _ h
  | rdir a q => exact read _ _ _ _ h
  | wrco a b => exact write _ _ _ h
  | wrhr a v => exact write _ _ _ h
  | wrmco a bs => exact batch _ _ _ _ h
  | wrmhr a vs => exact batch _ _ _ _ h

theorem consumeAfter_next {o : Host.Outcome State Fault Refusal} {t : State} (h : consumeAfter o = .next t) :
    ∃ t', o = .next t' ∧ t = consumeFrame t' := by
  cases o with
  | next t' => exact ⟨t', rfl, by cases h; rfl⟩
  | fault r => cases h
  | refused r => cases h

/-- Every way the bytes of a PDU are dispatched (R133). -/
theorem dispatchPdu_cases (u : Byte) (p : List Byte) (s : State) :
    (∃ i, decode p = .ok i ∧ dispatchPdu u p s = exec i s) ∨
    (∃ e, decode p = .error e ∧ dispatchPdu u p s = .next (takeException u (p.headD 0#8) e s)) := by
  unfold dispatchPdu
  split
  · next i h => exact .inl ⟨i, h, rfl⟩
  · next e h => exact .inr ⟨e, h, rfl⟩

/-- Every way a frame ends (R112). -/
theorem frameEnd_cases (s : State) :
    (∃ r, frameEnd s = .next (drop r (consumeFrame s))) ∨
    (∃ u sl, s.rxOvf = false ∧ 4 ≤ s.rxBuf.length ∧ crcOk s.rxBuf = true ∧ s.target = .ok (u, sl) ∧
      frameEnd s = consumeAfter (dispatchPdu u (framePdu s.rxBuf) s)) := by
  unfold frameEnd
  by_cases h1 : s.rxOvf = true
  · exact .inl ⟨.overflow, by simp [h1]⟩
  · by_cases h2 : s.rxBuf.length < 4
    · exact .inl ⟨.short, by simp [h1, h2]⟩
    · by_cases h3 : crcOk s.rxBuf = true
      · cases h4 : s.target with
        | error r => exact .inl ⟨r, by simp [h1, h2, h3]⟩
        | ok p => exact .inr ⟨p.1, p.2, by simpa using h1, by omega, h3, rfl, by simp [h1, h2, h3]⟩
      · exact .inl ⟨.crc, by simp [h1, h2, h3]⟩

/-- Everything a step can do: keep the state when no event is scheduled, or react to the next event. -/
theorem step_cases {s t : State} (h : step s = .next t) :
    s.cfg.wf = true ∧
      ((s.inputs = [] ∧ t = s) ∨ ∃ e rest, s.inputs = e :: rest ∧ react e { s with inputs := rest } = .next t) := by
  unfold step stepBlock at h
  by_cases hw : s.cfg.wf = true
  · simp only [hw, if_true] at h
    refine ⟨hw, ?_⟩
    split at h
    · next he => cases h; exact .inl ⟨he, rfl⟩
    · next e rest he => exact .inr ⟨e, rest, he, h⟩
  · simp [hw] at h

/-- The step on a given event. -/
theorem step_of_next {s : State} {e : Input} {rest : List Input} (h : NextEvent s e rest) :
    step s = react e { s with inputs := rest } := by
  simp [step, stepBlock, h.1, h.2]

end Sys2Proof.Machine
end

