-- ==== Sys2Proof/Laws/PerInstr.lean ====
section
/-! SUPPORT. Statements for every request, one lemma per constructor: the shape of a request's encoding. -/

namespace Sys2Proof.Laws.EncodeShape

/-- The encoding of a well-formed request begins with its function code, is a PDU of 5 bytes or of 6 and its data, and
is no longer than the widest byte count allows (30_encoding.md R72, R76, R83). -/
def Statement (i : Instr) : Prop :=
  i.wf = true → (encode i).head? = some i.fc ∧ 5 ≤ (encode i).length ∧ (encode i).length ≤ 261

theorem rdco (addr qty : Word) : Statement (.rdco addr qty) := fun _ => by simp [encode, twoFieldPdu, Instr.fc]

theorem rddi (addr qty : Word) : Statement (.rddi addr qty) := fun _ => by simp [encode, twoFieldPdu, Instr.fc]

theorem rdhr (addr qty : Word) : Statement (.rdhr addr qty) := fun _ => by simp [encode, twoFieldPdu, Instr.fc]

theorem rdir (addr qty : Word) : Statement (.rdir addr qty) := fun _ => by simp [encode, twoFieldPdu, Instr.fc]

theorem wrco (addr : Word) (bit : Bool) : Statement (.wrco addr bit) := fun _ => by
  simp [encode, twoFieldPdu, Instr.fc]

theorem wrhr (addr val : Word) : Statement (.wrhr addr val) := fun _ => by simp [encode, twoFieldPdu, Instr.fc]

theorem wrmco (addr : Word) (bits : List Bool) : Statement (.wrmco addr bits) := fun h => by
  simp only [Instr.wf, Bool.and_eq_true, decide_eq_true_eq] at h
  have := ceil8_bound bits.length
  simp [encode, twoFieldPdu, Instr.fc]; omega

theorem wrmhr (addr : Word) (vals : List Word) : Statement (.wrmhr addr vals) := fun h => by
  simp only [Instr.wf, Bool.and_eq_true, decide_eq_true_eq] at h
  simp [encode, twoFieldPdu, Instr.fc]; omega

end Sys2Proof.Laws.EncodeShape
end

