-- ==== Sys2Proof/Tests/Slice0.lean ====
section
/-! SUPPORT. Small tests with expected results from spec/ (95_test_vectors.md by vector id, or a rule's worked example),
the smoke test of WellFormed, and a witness for the hypotheses of every statement that has some. -/

namespace Sys2Proof.Tests

-- One test after the other: each waiting kernel check would hold a thread and its stack.
set_option Elab.async false

open Sys2Proof.Machine

section Helpers

/-- The state after a step, where there is one. -/
def next? : Host.Outcome State Fault Refusal → Option State
  | .next t => some t
  | .fault _ => none
  | .refused _ => none

/-- A frame received whole, the tick that ends it the next event. -/
def received (cfg : Config) (frame : List Byte) : State :=
  { State.init cfg with rxBuf := frame, idleCnt := cfg.t35Ticks - 1, phase := .receive, inputs := [.tick] }

/-- The response bytes and the outputs after the frame end, under configuration T1. -/
def answer (frame : List Byte) : Option (List Byte × List Output) :=
  (next? (step (received Config.reference frame))).map fun t => (t.txBuf, t.outputs)

/-- The response bytes alone. -/
def response (frame : List Byte) : Option (List Byte) := (answer frame).map Prod.fst

/-- Configuration T2 of 95_test_vectors.md. -/
def t2 : Config :=
  { mode := .multi
    slaves := [
      { unitId := 1#8, co := .absent Bool, di := .absent Bool, ir := .holding [7#16, 8#16]
        hr := .holding [0x0011#16, 0x0022#16, 0x0033#16, 0x0044#16] },
      { unitId := 17#8, co := .holding (List.replicate 8 false), di := .absent Bool, ir := .absent Word
        hr := .holding [0xAAAA#16, 0xBBBB#16] }]
    t35Ticks := 1 }

/-- T1 after reset with one byte from unit 1 in the receive buffer: enough for `exec`. -/
def base : State := { State.reset with rxBuf := [1#8] }

/-- T1 after reset with one event scheduled. -/
def given (e : Input) : State := { State.reset with inputs := [e] }

end Helpers

section WellFormedSmoke

/-- A slave whose one bank is the given holding-register bank. -/
def oneBank (b : BankConfig Word) : SlaveConfig :=
  { unitId := 1#8, co := .absent Bool, di := .absent Bool, ir := .absent Word, hr := b }

theorem test_wf_no_coils : (Instr.wrmco 0#16 []).wf = false := by decide
theorem test_wf_too_many_coils : (Instr.wrmco 0#16 (List.replicate 2041 true)).wf = false := by decide +kernel
theorem test_wf_no_registers : (Instr.wrmhr 0#16 []).wf = false := by decide
theorem test_wf_too_many_registers : (Instr.wrmhr 0#16 (List.replicate 128 0#16)).wf = false := by decide +kernel
theorem test_wf_widest_batches :
    (Instr.wrmco 0#16 (List.replicate 2040 true)).wf = true ∧ (Instr.wrmhr 0#16 (List.replicate 127 0#16)).wf = true := by
  decide +kernel
theorem test_wf_reference : Config.reference.wf = true ∧ t2.wf = true := by decide
theorem test_wf_no_slave : Config.wf { t2 with slaves := [] } = false := by decide
theorem test_wf_single_with_two : Config.wf { t2 with mode := .single } = false := by decide
theorem test_wf_same_unit_twice :
    Config.wf { t2 with slaves := [oneBank (.holding [0#16]), oneBank (.holding [1#16])] } = false := by decide
theorem test_wf_no_silence : Config.wf { t2 with t35Ticks := 0 } = false := by decide
theorem test_wf_length_mismatch :
    Config.wf { t2 with slaves := [oneBank { present := true, len := 2, init := [0#16] }] } = false := by decide
theorem test_wf_absent_with_elements :
    Config.wf { t2 with slaves := [oneBank { present := false, len := 1, init := [0#16] }] } = false := by decide
theorem test_wf_bank_too_long : (BankConfig.wf (α := Word) { present := true, len := 65537, init := [] }) = false := by
  decide

end WellFormedSmoke

section Decoding

/-- 95_test_vectors.md S6, one PDU per function code, and the padding instance after them. -/
theorem test_decode_rdco : decode [0x01#8, 0x00#8, 0x04#8, 0x00#8, 0x09#8] = .ok (.rdco 4#16 9#16) := by decide
theorem test_decode_rddi : decode [0x02#8, 0x00#8, 0x02#8, 0x00#8, 0x06#8] = .ok (.rddi 2#16 6#16) := by decide
theorem test_decode_rdhr : decode [0x03#8, 0x01#8, 0x02#8, 0x00#8, 0x7D#8] = .ok (.rdhr 0x0102#16 125#16) := by decide
theorem test_decode_rdir : decode [0x04#8, 0x00#8, 0x01#8, 0x00#8, 0x02#8] = .ok (.rdir 1#16 2#16) := by decide
theorem test_decode_wrco : decode [0x05#8, 0x00#8, 0x01#8, 0xFF#8, 0x00#8] = .ok (.wrco 1#16 true) := by decide
theorem test_decode_wrhr : decode [0x06#8, 0x00#8, 0x63#8, 0xAB#8, 0xCD#8] = .ok (.wrhr 99#16 0xABCD#16) := by decide
theorem test_decode_wrmco_padding :
    decode [0x0F#8, 0x00#8, 0x03#8, 0x00#8, 0x0A#8, 0x02#8, 0xCD#8, 0xFD#8] =
      .ok (.wrmco 3#16 [true, false, true, true, false, false, true, true, true, false]) := by decide
theorem test_decode_wrmhr :
    decode [0x10#8, 0x00#8, 0x00#8, 0x00#8, 0x02#8, 0x04#8, 0x00#8, 0x48#8, 0x00#8, 0x69#8] =
      .ok (.wrmhr 0#16 [72#16, 105#16]) := by decide
/-- R77, R78, R80. -/
theorem test_decode_rejects :
    decode [0x05#8, 0x00#8, 0x00#8, 0x00#8, 0x01#8] = .error .illegalDataValue ∧
    decode [0x03#8, 0x00#8, 0x00#8, 0x00#8] = .error .illegalDataValue ∧
    decode [0x10#8, 0x00#8, 0x00#8, 0x00#8, 0x02#8, 0x03#8, 0x00#8, 0x01#8, 0x00#8] = .error .illegalDataValue ∧
    decode [0x83#8, 0x01#8, 0x02#8, 0x03#8] = .error .illegalFunction ∧
    decode [0x07#8] = .error .illegalFunction := by decide
/-- R83: `encode_req`. -/
theorem test_encode_wrmco :
    encode (.wrmco 3#16 [true, false, true, true, false, false, true, true, true, false]) =
      [0x0F#8, 0x00#8, 0x03#8, 0x00#8, 0x0A#8, 0x02#8, 0xCD#8, 0x01#8] := by decide
/-- The table's eight rows at the host's words: the function code, every operand bit 0. -/
theorem test_table_rows :
    (List.map (decodeTableWord 8) [1, 2, 3, 4, 5, 6, 15, 16]) =
      [some (.rdco 0#16 0#16), some (.rddi 0#16 0#16), some (.rdhr 0#16 0#16), some (.rdir 0#16 0#16),
       some (.wrco 0#16 false), some (.wrhr 0#16 0#16), some (.wrmco 0#16 []), some (.wrmhr 0#16 [])] := by decide
/-- The second byte of the PDU is bits 15 to 8 of the word: `RDHR(0x0102, 3)`. -/
theorem test_table_word_bytes : decodeTableWord 40 0x0300020103 = some (.rdhr 0x0102#16 3#16) := by decide
/-- R90: the syntax of a line. -/
theorem test_render_line :
    (RequestLine.request 17#8 (.wrmco 5#16 [true, false])).render = "WRMCO 17, 5, [1, 0]" := by decide +kernel
/-- R90: a response line. -/
theorem test_render_response :
    renderResponse [0x01#8, 0x83#8, 0x02#8, 0xC0#8, 0xF1#8] = "-> 01 83 02 C0 F1" := by decide +kernel

end Decoding

section Frames

/-- V-C1 to V-C6 of 95_test_vectors.md. -/
theorem test_crc_values :
    crc16 [] = 0xFFFF#16 ∧ crc16 [0x00#8] = 0x40BF#16 ∧ crc16 [0x01#8] = 0x807E#16 ∧ crc16 [0xFF#8] = 0x00FF#16 ∧
    crc16 [0x01#8, 0x03#8, 0x00#8, 0x00#8, 0x00#8, 0x0A#8] = 0xCDC5#16 := by decide +kernel
/-- R100: the eight shifts of the byte 0x01. -/
theorem test_crc_steps :
    crcShift 0xFFFE#16 = 0x7FFF#16 ∧ crcShift 0x7FFF#16 = 0x9FFE#16 ∧ crcShift 0x9FFE#16 = 0x4FFF#16 := by decide
/-- V-F1, V-F2, V-F6. -/
theorem test_drop_short :
    answer [0x01#8] = some ([], [.drop .short]) ∧ answer [0xFF#8, 0xFF#8] = some ([], [.drop .short]) := by decide +kernel
theorem test_drop_crc :
    answer [0x01#8, 0x03#8, 0x00#8, 0x00#8, 0x00#8, 0x0A#8, 0xC5#8, 0xCC#8] = some ([], [.drop .crc]) := by decide +kernel
/-- V-M3. -/
theorem test_drop_unrouted :
    (next? (step (received t2 [0x02#8, 0x03#8, 0x00#8, 0x00#8, 0x00#8, 0x01#8, 0x84#8, 0x39#8]))).map
      (fun t => (t.phase, t.outputs)) = some (.idle, [.drop .unrouted]) := by decide +kernel
/-- R113: an overflowed frame is dropped whatever it holds. -/
theorem test_drop_overflow :
    (next? (step { received Config.reference [0x01#8] with rxOvf := true })).map (fun t => t.outputs) =
      some [.drop .overflow] := by decide
/-- V-F5, V-U1, V-U5. -/
theorem test_code_alone :
    response [0x01#8, 0x03#8, 0x40#8, 0x21#8] = some [0x01#8, 0x83#8, 0x03#8, 0x01#8, 0x31#8] ∧
    response [0x01#8, 0x07#8, 0x41#8, 0xE2#8] = some [0x01#8, 0x87#8, 0x01#8, 0x82#8, 0x30#8] ∧
    response [0x01#8, 0x83#8, 0x01#8, 0x02#8, 0x03#8, 0x20#8, 0xE5#8] =
      some [0x01#8, 0x83#8, 0x01#8, 0x80#8, 0xF0#8] := by decide +kernel
/-- R110: the first byte after reset; R119: a byte during a response. -/
theorem test_first_byte :
    (next? (step (given (.rxByte 1#8)))).map (fun t => (t.rxBuf, t.phase)) = some ([1#8], .receive) := by decide
theorem test_ignored_byte :
    (next? (step { given (.rxByte 3#8) with phase := .transmit, txBuf := [1#8, 2#8] })).map
      (fun t => (t.rxBuf, t.outputs)) = some ([], [.rxIgnored 3#8]) := by decide
/-- R110: the 257th byte. -/
theorem test_overflow_byte :
    (next? (step { given (.rxByte 0#8) with phase := .receive, rxBuf := List.replicate 256 0#8 })).map
      (fun t => (t.rxLen, t.rxOvf)) = some (256, true) := by decide +kernel
/-- R118: the last byte of a response. -/
theorem test_last_byte_taken :
    (next? (step { given .txTake with phase := .transmit, txBuf := [0xC0#8, 0xF1#8], txPos := 1 })).map
      (fun t => (t.phase, t.txBuf, t.txPos, t.outputs)) = some (.idle, [], 0, [.txByte 0xF1#8]) := by decide

end Frames

section Requests

/-- V-RD1: the whole coil bank. -/
theorem test_rdco :
    response [0x01#8, 0x01#8, 0x00#8, 0x00#8, 0x00#8, 0x13#8, 0x7D#8, 0xC7#8] =
      some [0x01#8, 0x01#8, 0x03#8, 0xCD#8, 0x6B#8, 0x01#8, 0x43#8, 0x41#8] := by decide +kernel
/-- V-RD2: a range that starts at no byte boundary; V-RD9: no wrap of the address. -/
theorem test_rdco_offset_and_no_wrap :
    response [0x01#8, 0x01#8, 0x00#8, 0x04#8, 0x00#8, 0x09#8, 0xBD#8, 0xCD#8] =
      some [0x01#8, 0x01#8, 0x02#8, 0xBC#8, 0x00#8, 0xC9#8, 0x3C#8] ∧
    response [0x01#8, 0x01#8, 0xFF#8, 0xFF#8, 0x00#8, 0x02#8, 0xBD#8, 0xEF#8] =
      some [0x01#8, 0x81#8, 0x02#8, 0xC1#8, 0x91#8] := by decide +kernel
/-- V-RD10. -/
theorem test_rddi :
    response [0x01#8, 0x02#8, 0x00#8, 0x02#8, 0x00#8, 0x06#8, 0x59#8, 0xC8#8] =
      some [0x01#8, 0x02#8, 0x01#8, 0x2D#8, 0x61#8, 0x95#8] := by decide +kernel
/-- V-RD12 and V-RD14. -/
theorem test_rdhr :
    answer [0x01#8, 0x03#8, 0x00#8, 0x00#8, 0x00#8, 0x02#8, 0xC4#8, 0x0B#8] =
      some ([0x01#8, 0x03#8, 0x04#8, 0x00#8, 0x00#8, 0x00#8, 0x00#8, 0xFA#8, 0x33#8],
        [.obs .read 0 .hr 0 2 (.hr [0#16, 0#16])]) ∧
    answer [0x01#8, 0x03#8, 0x00#8, 0x00#8, 0x00#8, 0x7E#8, 0xC5#8, 0xEA#8] =
      some ([0x01#8, 0x83#8, 0x03#8, 0x01#8, 0x31#8], []) := by decide +kernel
/-- V-RD17 and V-RD16. -/
theorem test_rdir :
    response [0x01#8, 0x04#8, 0x00#8, 0x00#8, 0x00#8, 0x04#8, 0xF1#8, 0xC9#8] =
      some [0x01#8, 0x04#8, 0x08#8, 0x00#8, 0x0A#8, 0x12#8, 0x34#8, 0xFF#8, 0xFF#8, 0x00#8, 0x00#8, 0x3C#8, 0x9F#8] ∧
    response [0x01#8, 0x04#8, 0x00#8, 0x03#8, 0x00#8, 0x02#8, 0x81#8, 0xCB#8] =
      some [0x01#8, 0x84#8, 0x02#8, 0xC2#8, 0xC1#8] := by decide +kernel
/-- V-W1 and V-W7 (value before address). -/
theorem test_wrco :
    answer [0x01#8, 0x05#8, 0x00#8, 0x01#8, 0xFF#8, 0x00#8, 0xDD#8, 0xFA#8] =
      some ([0x01#8, 0x05#8, 0x00#8, 0x01#8, 0xFF#8, 0x00#8, 0xDD#8, 0xFA#8],
        [.obs .write 0 .co 1 1 (.co [true])]) ∧
    response [0x01#8, 0x05#8, 0x00#8, 0x13#8, 0x12#8, 0x34#8, 0x31#8, 0x78#8] =
      some [0x01#8, 0x85#8, 0x03#8, 0x02#8, 0x91#8] := by decide +kernel
/-- V-W9 and V-W10. -/
theorem test_wrhr :
    response [0x01#8, 0x06#8, 0x00#8, 0x63#8, 0xAB#8, 0xCD#8, 0xC7#8, 0x71#8] =
      some [0x01#8, 0x06#8, 0x00#8, 0x63#8, 0xAB#8, 0xCD#8, 0xC7#8, 0x71#8] ∧
    response [0x01#8, 0x06#8, 0x00#8, 0x64#8, 0x00#8, 0x01#8, 0x09#8, 0xD5#8] =
      some [0x01#8, 0x86#8, 0x02#8, 0xC3#8, 0xA1#8] := by decide +kernel
/-- V-W14: the bank after a multiple write with padding bits set. -/
theorem test_wrmco :
    (next? (step (received Config.reference
      [0x01#8, 0x0F#8, 0x00#8, 0x03#8, 0x00#8, 0x0A#8, 0x02#8, 0xCD#8, 0xFD#8, 0x70#8, 0x1A#8]))).map
        (fun t => (t.txBuf, Memory.bank t.banks 0 .co)) =
      some ([0x01#8, 0x0F#8, 0x00#8, 0x03#8, 0x00#8, 0x0A#8, 0x25#8, 0xCC#8],
        .co [true, false, true, true, false, true, true, false, false, true, true, true, false,
          true, true, false, true, false, false]) := by decide +kernel
/-- V-W16: a batch that runs out of the bank writes nothing. -/
theorem test_wrmco_all_or_nothing :
    (next? (step (received Config.reference
      [0x01#8, 0x0F#8, 0x00#8, 0x10#8, 0x00#8, 0x04#8, 0x01#8, 0x0F#8, 0xBF#8, 0x51#8]))).map
        (fun t => (t.txBuf, t.banks)) =
      some ([0x01#8, 0x8F#8, 0x02#8, 0xC5#8, 0xF1#8], State.reset.banks) := by decide +kernel
/-- V-W21. -/
theorem test_wrmhr :
    (next? (step (received Config.reference
      [0x01#8, 0x10#8, 0x00#8, 0x62#8, 0x00#8, 0x02#8, 0x04#8, 0x11#8, 0x22#8, 0x33#8, 0x44#8, 0xC5#8, 0xAB#8]))).map
        (fun t => (t.txBuf, t.element 0 .hr 97, t.element 0 .hr 98, t.element 0 .hr 99)) =
      some ([0x01#8, 0x10#8, 0x00#8, 0x62#8, 0x00#8, 0x02#8, 0xE0#8, 0x16#8],
        some 0#16, some 0x1122#16, some 0x3344#16) := by decide +kernel
/-- V-M14 (multi mode, slave 1) and V-M5 (an absent bank is 02). -/
theorem test_multi_slave :
    (next? (step (received t2 [0x11#8, 0x06#8, 0x00#8, 0x01#8, 0x12#8, 0x34#8, 0xD7#8, 0xED#8]))).map
        (fun t => (t.element 0 .hr 1, t.element 1 .hr 1)) = some (some 0x0022#16, some 0x1234#16) ∧
    (next? (step (received t2 [0x01#8, 0x01#8, 0x00#8, 0x00#8, 0x00#8, 0x05#8, 0xFC#8, 0x09#8]))).map
        State.txBuf = some [0x01#8, 0x81#8, 0x02#8, 0xC1#8, 0x91#8] := by decide +kernel

end Requests

section HostAndReset

/-- V-H1, V-H2. -/
theorem test_host_read :
    (next? (step (given (.hostRead 0 .ir 1 2)))).map State.outputs =
      some [.hostResult (.values (.ir [0x1234#16, 0xFFFF#16]))] ∧
    (next? (step (given (.hostRead 0 .ir 3 2)))).map State.outputs = some [.hostResult .addressingFault] := by decide
/-- V-H3, V-H4. -/
theorem test_host_write :
    (next? (step (given (.hostWrite 0 0 (.ir [0x0102#16]))))).map (fun t => (t.element 0 .ir 0, t.outputs)) =
      some (some 0x0102#16, [.hostResult .ok]) ∧
    (next? (step (given (.hostWrite 0 8 (.di [true, true, true]))))).map (fun t => (t.banks, t.outputs)) =
      some (State.reset.banks, [.hostResult .addressingFault]) := by decide
/-- V-X1: reset in the middle of a response. -/
theorem test_reset_event :
    next? (step { given .reset with phase := .transmit, txBuf := [1#8, 6#8], txPos := 1, banks := [] }) =
      some State.reset := by decide
/-- R210. -/
theorem test_cycle_order : cycleOrder [.txTake, .tick, .reset, .rxByte 1#8] = [.reset, .rxByte 1#8, .tick, .txTake] := by
  decide
/-- The word of `RDHR` at address 1, quantity 2, placed after reset, is the next request to run. -/
theorem test_placed_word :
    (next? (step (State.reset.withFetchWord 40 0x0200010003))).map State.outputs =
      some [.obs .read 0 .hr 1 2 (.hr [0#16, 0#16])] := by decide +kernel
/-- R92: an exception response decodes to itself. -/
theorem test_response_codec :
    decodeResponse [0x83#8, 0x02#8] = some (.exception 0x83#8 .illegalDataAddress) ∧
    decodeResponse [0x03#8, 0x02#8, 0x00#8, 0x48#8] = some (.data 0x03#8 0x02#8 [0x00#8, 0x48#8]) := by decide

end HostAndReset

section Witnesses

/-- T1 with the frame of a PDU from unit 1 received whole and the tick that ends it the next event. -/
def holding (pdu : List Byte) : State := received Config.reference (rtuFrame 1#8 pdu)

/-- T2 after reset with one byte from unit 17 in the receive buffer: slave 1, without discrete inputs and input registers. -/
def base17 : State := { State.init t2 with rxBuf := [17#8] }

/-- T1 in phase `TRANSMIT`, two bytes still to be sent, with one event scheduled. -/
def sending (e : Input) : State :=
  { given e with phase := .transmit, txBuf := [0x01#8, 0x83#8, 0x02#8, 0xC0#8, 0xF1#8], txPos := 3 }

theorem witness_CodecRoundTrip :
    (Instr.wrmco 3#16 [true]).wf = true ∧ (Instr.wrmhr 0#16 [1#16]).wf = true ∧
    decode [0x05#8, 0x00#8, 0x01#8, 0xFF#8, 0x00#8] = .ok (.wrco 1#16 true) ∧
    decode [0x0F#8, 0x00#8, 0x03#8, 0x00#8, 0x01#8, 0x01#8, 0xFF#8] = .ok (.wrmco 3#16 [true]) ∧
    (Response.data 0x01#8 1#8 [5#8]).wf = true ∧ (Response.single 0x06#8 1#16 2#16).wf = true ∧
    (Response.batch 0x10#8 1#16 2#16).wf = true ∧ (Response.exception 0x83#8 .illegalDataValue).wf = true ∧
    decodeResponse [0x83#8, 0x04#8] = some (.exception 0x83#8 .serverDeviceFailure) := by decide
theorem witness_UnsupportedFunctionAnsweredWith01 :
    FrameEndsNext (holding [0x07#8]) [] ∧ HoldsRequest (holding [0x07#8]) 1#8 0 [0x07#8] ∧ ¬ SupportedCode 0x07#8 ∧
    FrameEndsNext (holding [0x10#8]) [] ∧ HoldsRequest (holding [0x10#8]) 1#8 0 [0x10#8] ∧ SupportedCode 0x10#8 ∧
    (0x80#8 : Byte).getLsbD 7 = true := by decide +kernel
/-- Each clause at its boundary; the multiple writes at quantity 0 too (log entry 7). -/
theorem witness_WrongPduLengthIsIllegalValue :
    (0x06#8 : Byte).toNat ∈ [0x01, 0x02, 0x03, 0x04, 0x05, 0x06] ∧ ([1#8, 2#8, 3#8] : List Byte).length ≠ 4 ∧
    ([1#8, 2#8, 3#8, 4#8, 5#8] : List Byte).length ≠ 4 ∧
    (let p := [0x0F#8, 0x00#8, 0x03#8, 0x00#8, 0x09#8, 0x02#8, 0xCD#8, 0x01#8];
      6 ≤ p.length ∧ (p.getD 5 0#8).toNat = ceil8 (rawField p 3) ∧ p.length = 6 + (p.getD 5 0#8).toNat) ∧
    (let p := [0x0F#8, 0x00#8, 0x03#8, 0x00#8, 0x08#8, 0x02#8, 0xCD#8, 0x01#8];
      ¬ (p.getD 5 0#8).toNat = ceil8 (rawField p 3)) ∧
    (let p := [0x10#8, 0x00#8, 0x03#8, 0x00#8, 0x01#8, 0x02#8, 0xCD#8, 0x01#8];
      6 ≤ p.length ∧ (p.getD 5 0#8).toNat = 2 * rawField p 3 ∧ p.length = 6 + (p.getD 5 0#8).toNat) ∧
    (let p := [0x10#8, 0x00#8, 0x03#8, 0x00#8, 0x01#8, 0x02#8, 0xCD#8];
      ¬ p.length = 6 + (p.getD 5 0#8).toNat) ∧
    (let p := [0x0F#8, 0x00#8, 0x03#8, 0x00#8, 0x00#8, 0x00#8];
      6 ≤ p.length ∧ (p.getD 5 0#8).toNat = ceil8 (rawField p 3) ∧ p.length = 6 + (p.getD 5 0#8).toNat) ∧
    (let p := [0x10#8, 0x00#8, 0x03#8, 0x00#8, 0x00#8, 0x00#8];
      6 ≤ p.length ∧ (p.getD 5 0#8).toNat = 2 * rawField p 3 ∧ p.length = 6 + (p.getD 5 0#8).toNat) ∧
    FrameEndsNext (holding [0x03#8, 0#8]) [] ∧ HoldsRequest (holding [0x03#8, 0#8]) 1#8 0 [0x03#8, 0#8] ∧
    decode [0x03#8, 0#8] = .error .illegalDataValue := by decide +kernel
theorem witness_PaddingBitsCarryNoValue :
    ([0xCD#8, 0x01#8] : List Byte).length = [0xCD#8, 0xFD#8].length ∧
    (∀ j, j < 256 * (0x00#8 : Byte).toNat + (0x0A#8 : Byte).toNat →
      bitAt [0xCD#8, 0x01#8] j = bitAt [0xCD#8, 0xFD#8] j) ∧ [true].length ≤ 1 := by decide
theorem witness_FieldsAreHighByteFirst :
    decode [0x05#8, 0x00#8, 0x01#8, 0x00#8, 0x00#8] = .ok (.wrco 1#16 false) ∧
    decode [0x10#8, 0x01#8, 0x02#8, 0x00#8, 0x01#8, 0x02#8, 0x12#8, 0x34#8] = .ok (.wrmhr 0x0102#16 [0x1234#16]) ∧
    decode [0x0F#8, 0x01#8, 0x02#8, 0x00#8, 0x02#8, 0x01#8, 0x02#8] = .ok (.wrmco 0x0102#16 [false, true]) := by decide
theorem witness_BitPackingLaws :
    1 < ceil8 (List.replicate 9 true).length ∧ bitAt [0x01#8] 0 = bitAt [0xFF#8] 0 := by decide
theorem witness_WordPackingLaws : 1 < [1#16, 2#16].length ∧ packWords [1#16, 2#16] = [0#8, 1#8, 0#8, 2#8] := by decide
theorem witness_CrcResidueAndErrorDetection :
    crc16 [0x01#8, 0x03#8, 0x00#8, 0x00#8, 0x00#8, 0x0A#8, 0xC5#8, 0xCD#8] =
      crc16 [0x01#8, 0x83#8, 0x02#8, 0xC0#8, 0xF1#8] ∧ (0x00#8 : Byte) ≠ 0x01#8 := by decide +kernel
theorem witness_CrcCheckIsZeroResidue : 2 ≤ ([0xFF#8, 0xFF#8] : List Byte).length ∧ crcOk [0xFF#8, 0xFF#8] = true := by
  decide
theorem witness_ReceivedByteIsStoredOrLost :
    (let s := { given (.rxByte 7#8) with phase := .receive, rxBuf := List.replicate 255 0#8 };
      NextEvent s (.rxByte 7#8) [] ∧ s.phase ≠ .transmit ∧ s.rxLen < 256) ∧
    (let s := { given (.rxByte 7#8) with phase := .receive, rxBuf := List.replicate 256 0#8 };
      NextEvent s (.rxByte 7#8) [] ∧ s.phase ≠ .transmit ∧ 256 ≤ s.rxLen) := by decide +kernel
theorem witness_ByteDuringResponseIsDiscarded :
    NextEvent (sending (.rxByte 7#8)) (.rxByte 7#8) [] ∧ (sending (.rxByte 7#8)).phase = .transmit := by decide
/-- T1 has one tick of silence, so a configuration of three ticks for the clause that counts. -/
theorem witness_TickCountsTheSilence :
    NextEvent (given .tick) .tick [] ∧ (given .tick).phase ≠ .receive ∧
    (let s := { received { Config.reference with t35Ticks := 3 } [1#8] with idleCnt := 1 };
      NextEvent s .tick [] ∧ s.phase = .receive ∧ s.idleCnt + 1 < s.cfg.t35Ticks) ∧
    (let s := received { Config.reference with t35Ticks := 3 } [1#8];
      NextEvent s .tick [] ∧ s.phase = .receive ∧ s.cfg.t35Ticks ≤ s.idleCnt + 1) := by decide
theorem witness_FramingChecksDropInOrder :
    (let s := { received t2 [1#8] with rxOvf := true };
      FrameEndsNext s [] ∧ s.rxOvf = true) ∧
    (let s := received t2 [0xFF#8, 0xFF#8, 0xFF#8];
      FrameEndsNext s [] ∧ s.rxOvf = false ∧ s.rxLen < 4) ∧
    (let s := received t2 [0x01#8, 0x03#8, 0x40#8, 0x22#8];
      FrameEndsNext s [] ∧ s.rxOvf = false ∧ 4 ≤ s.rxLen ∧ crcOk s.rxBuf = false) ∧
    (let s := received t2 (rtuFrame 2#8 [0x03#8]);
      FrameEndsNext s [] ∧ s.rxOvf = false ∧ 4 ≤ s.rxLen ∧ crcOk s.rxBuf = true ∧
        route s.cfg (s.rxBuf.headD 0#8) = none) := by decide +kernel
theorem witness_StepRunsTheDecodedRequest :
    (let pdu := [0x03#8, 0x00#8, 0x00#8, 0x00#8, 0x02#8];
      FrameEndsNext (holding pdu) [] ∧ HoldsRequest (holding pdu) 1#8 0 pdu ∧ decode pdu = .ok (.rdhr 0#16 2#16)) ∧
    (let pdu := [0x07#8];
      FrameEndsNext (holding pdu) [] ∧ HoldsRequest (holding pdu) 1#8 0 pdu ∧ decode pdu = .error .illegalFunction) ∧
    crcOk [0x01#8, 0x03#8, 0x40#8, 0x21#8] = true := by decide +kernel
theorem witness_TransmitterTakesTheNextByte :
    NextEvent (given .txTake) .txTake [] ∧ (given .txTake).phase ≠ .transmit ∧
    (let s := sending .txTake;
      NextEvent s .txTake [] ∧ s.phase = .transmit ∧ s.txBuf[s.txPos]? = some 0xC0#8 ∧ s.txPos + 1 < s.txLen) ∧
    (let s := { sending .txTake with txPos := 4 };
      NextEvent s .txTake [] ∧ s.phase = .transmit ∧ s.txBuf[s.txPos]? = some 0xF1#8 ∧ s.txLen ≤ s.txPos + 1) := by decide
theorem witness_ResponseLeavesInOrder :
    let s := { sending .txTake with inputs := [.txTake, .txTake] };
    s.cfg.wf = true ∧ s.phase = .transmit ∧ s.txPos < s.txLen ∧ 2 = s.txLen - s.txPos ∧
      s.inputs = List.replicate 2 Input.txTake ++ [] := by decide
theorem witness_FrameIsReceivedWhole :
    let s := { State.init { Config.reference with t35Ticks := 3 } with
      inputs := [1#8, 2#8].map Input.rxByte ++ List.replicate 2 Input.tick ++ [] };
    s.Inv ∧ s.phase = .idle ∧ 2 < s.cfg.t35Ticks := by decide +kernel
theorem witness_RequestLineIsAnswered :
    let s := { State.reset with inputs := (RequestLine.raw 1#8 [0x03#8, 0#8, 0#8, 0#8, 1#8]).events Config.reference ++ [] };
    s.Inv ∧ s.phase = .idle ∧ route s.cfg 1#8 = some 0 := by decide +kernel
/-- A request that succeeds and one that is refused, of `AcceptedFrameIsAnswered` and `AcceptedFrameIsDispatched`. -/
theorem witness_AcceptedFrameIsDispatched :
    (let pdu := [0x03#8, 0x00#8, 0x00#8, 0x00#8, 0x7D#8];
      FrameEndsNext (holding pdu) [] ∧ HoldsRequest (holding pdu) 1#8 0 pdu) ∧
    (let pdu := [0x10#8, 0x00#8, 0x62#8, 0x00#8, 0x01#8, 0x02#8, 0x00#8, 0x05#8];
      FrameEndsNext (holding pdu) [] ∧ HoldsRequest (holding pdu) 1#8 0 pdu) := by decide +kernel
theorem witness_OneCorruptByteDropsTheFrame :
    let f := [0x01#8, 0x03#8, 0x40#8, 0x21#8];
    let s := received Config.reference (f.set 3 0x20#8);
    FrameEndsNext s [] ∧ s.rxOvf = false ∧ 4 ≤ f.length ∧ crcOk f = true ∧ 3 < f.length ∧ 0x20#8 ≠ f.getD 3 0#8 := by
  decide +kernel
theorem witness_AcceptedFrameIsAnswered :
    FrameEndsNext (holding [0x11#8]) [] ∧ HoldsRequest (holding [0x11#8]) 1#8 0 [0x11#8] := by decide +kernel
theorem witness_DispatchMatchesPseudocode : Serves base 1#8 0 ∧ Serves base17 17#8 1 ∧ ([0x03#8] : List Byte) ≠ [] := by
  decide
/-- A request that completes and one that raises. -/
theorem witness_ExceptionLeavesNoTrace :
    Serves base 1#8 0 ∧
    (next? (dispatchPdu 1#8 [0x05#8, 0#8, 18#8, 0xFF#8, 0#8] base)).map (fun t => t.outputs.length) = some 1 ∧
    (next? (dispatchPdu 1#8 [0x05#8, 0#8, 19#8, 0xFF#8, 0#8] base)).map (fun t => t.outputs.length) = some 0 := by
  decide +kernel
/-- The coil bank of T1 has 19 elements. -/
theorem witness_RdcoReadsCoils :
    Memory.wf base.cfg base.banks = true ∧ Serves base 1#8 0 ∧
    (2001#16).toNat > 2000 ∧ ¬ InBank base.cfg 0 .co 18 2 ∧ InBank base.cfg 0 .co 17 2 ∧
    ¬ InBank base.cfg 0 .co 0xFFFF 2 ∧ 2000 ≤ (2000#16).toNat := by decide
/-- The discrete inputs of T1 are 10; slave 1 of T2 has none. -/
theorem witness_RddiReadsDiscreteInputs :
    Memory.wf base.cfg base.banks = true ∧ Serves base 1#8 0 ∧
    Memory.wf base17.cfg base17.banks = true ∧ Serves base17 17#8 1 ∧
    ¬ InBank base.cfg 0 .di 9 2 ∧ InBank base.cfg 0 .di 9 1 ∧ ¬ InBank base17.cfg 1 .di 0 1 := by decide
theorem witness_RdhrReadsHoldingRegisters :
    Memory.wf base.cfg base.banks = true ∧ Serves base 1#8 0 ∧
    (126#16).toNat > 125 ∧ ¬ InBank base.cfg 0 .hr 0 125 ∧ InBank base.cfg 0 .hr 0 100 := by decide
theorem witness_RdirReadsInputRegisters :
    Memory.wf base.cfg base.banks = true ∧ Serves base 1#8 0 ∧
    ¬ InBank base.cfg 0 .ir 3 2 ∧ InBank base.cfg 0 .ir 3 1 := by decide
theorem witness_WrcoWritesOneCoil :
    Memory.wf base.cfg base.banks = true ∧ Serves base 1#8 0 ∧
    ¬ InBank base.cfg 0 .co 19 1 ∧ InBank base.cfg 0 .co 18 1 ∧ be16 0x00#8 0x01#8 ≠ 0xFF00#16 ∧
    be16 0x00#8 0x01#8 ≠ 0x0000#16 := by decide
theorem witness_WrhrWritesOneRegister :
    Memory.wf base.cfg base.banks = true ∧ Serves base 1#8 0 ∧
    ¬ InBank base.cfg 0 .hr 100 1 ∧ InBank base.cfg 0 .hr 99 1 := by decide
theorem witness_WrmcoWritesCoils :
    Memory.wf base.cfg base.banks = true ∧ Serves base 1#8 0 ∧
    ([] : List Bool).length = 0 ∧
    (¬ InBank base.cfg 0 .co 16 (List.replicate 4 true).length) ∧ InBank base.cfg 0 .co 16 (List.replicate 3 true).length ∧
    ((2#8 : Byte).toNat ≠ ceil8 (be16 0#8 8#8).toNat) := by decide +kernel
theorem witness_WrmcoWritesCoils_too_many : (List.replicate 1969 true).length > 1968 := by
  rw [List.length_replicate]; decide
theorem witness_WrmhrWritesRegisters :
    Memory.wf base.cfg base.banks = true ∧ Serves base 1#8 0 ∧
    (List.replicate 124 0#16).length > 123 ∧ (¬ InBank base.cfg 0 .hr 99 [1#16, 2#16].length) ∧
    InBank base.cfg 0 .hr 98 [1#16, 2#16].length ∧ ((4#8 : Byte).toNat ≠ 2 * (be16 0#8 1#8).toNat) := by
  decide +kernel
/-- A write request that completes, so that the frame is about a changed state. -/
theorem witness_RequestsLeaveTheRest :
    Memory.wf base.cfg base.banks = true ∧
    (next? (exec (.wrhr 5#16 7#16) base)).map (fun t => (t.element 0 .hr 5, t.element 0 .hr 6)) =
      some (some 7#16, some 0#16) := by decide +kernel
/-- Each class of the checks in turn; the bank checks at the end of the coil bank. -/
theorem witness_FirstFailingCheckIsReported :
    Memory.wf base.cfg base.banks = true ∧ Serves base 1#8 0 ∧
    ¬ SupportedCode 0x11#8 ∧ SupportedCode 0x03#8 ∧
    valueChecks [0x03#8, 0xFF#8, 0xFF#8, 0x00#8, 0x00#8] = false ∧
    (let p := [0x0F#8, 0x00#8, 0x10#8, 0x00#8, 0x04#8, 0x01#8, 0x0F#8];
      valueChecks p = true ∧ ¬ InBank base.cfg 0 (codeKind 0x0F#8) (rawField p 1) (rawQuantity p)) ∧
    (let p := [0x0F#8, 0x00#8, 0x0F#8, 0x00#8, 0x04#8, 0x01#8, 0x0F#8];
      valueChecks p = true ∧ InBank base.cfg 0 (codeKind 0x0F#8) (rawField p 1) (rawQuantity p)) := by decide
theorem witness_RoutingFollowsTheMode :
    Config.reference.wf = true ∧ Config.reference.mode = .single ∧ t2.wf = true ∧ t2.mode = .multi ∧
    route t2 17#8 = some 1 ∧ route t2 2#8 = none := by decide
theorem witness_BoundsCheckDoesNotWrap :
    Config.reference.wf = true ∧ inRange Config.reference 0 .hr 0 100 = true ∧ inRange Config.reference 0 .hr 1 100 = false := by
  decide
theorem witness_AccessPrimitives :
    Memory.wf base.cfg base.banks = true ∧ ¬ InBank base.cfg 0 .ir 4 1 ∧ InBank base.cfg 0 .ir 4 0 ∧
    ¬ InBank base.cfg 0 (BankValues.di [true, true]).kind 9 (BankValues.di [true, true]).length ∧
    InBank base.cfg 0 (BankValues.di [true, true]).kind 8 (BankValues.di [true, true]).length := by decide
theorem witness_ReadAfterWrite :
    Memory.wf base.cfg base.banks = true ∧ ∃ m, memWrite base 0 2 (.ir [1#16, 2#16]) = .ok m := ⟨by decide, _, rfl⟩
theorem witness_WrittenRangeReadsBack :
    Memory.wf base.cfg base.banks = true ∧ Serves base 1#8 0 ∧ (1#16).toNat = [7#16].length ∧
    ((next? (exec (.wrmhr 5#16 [7#16]) base)).map fun t => decide (t.outputs ≠ base.outputs ∧ Serves t 1#8 0)) =
      some true ∧
    ((next? (exec (.wrmco 5#16 [true]) base)).map fun t => decide (t.outputs ≠ base.outputs ∧ Serves t 1#8 0)) =
      some true := by decide +kernel
theorem witness_HostReadAnswers :
    Memory.wf Config.reference State.reset.banks = true ∧
    NextEvent (given (.hostRead 0 .ir 4 1)) (.hostRead 0 .ir 4 1) [] ∧ 0 < (given .tick).cfg.nslaves ∧
    ¬ InBank Config.reference 0 .ir 4 1 ∧ NextEvent (given (.hostRead 0 .ir 4 0)) (.hostRead 0 .ir 4 0) [] ∧
    InBank Config.reference 0 .ir 4 0 := by decide
theorem witness_HostWriteWritesAllOrNothing :
    Memory.wf Config.reference State.reset.banks = true ∧
    NextEvent (given (.hostWrite 0 9 (.di [true]))) (.hostWrite 0 9 (.di [true])) [] ∧
    InBank Config.reference 0 .di 9 1 ∧
    NextEvent (given (.hostWrite 0 9 (.di [true, true]))) (.hostWrite 0 9 (.di [true, true])) [] ∧
    ¬ InBank Config.reference 0 .di 9 2 := by decide
theorem witness_IllegalSetupAndHostEventsRefused :
    Config.wf { t2 with t35Ticks := 0 } = false ∧
    NextEvent (given (.hostRead 1 .co 0 0)) (.hostRead 1 .co 0 0) [] ∧
    NextEvent (given (.hostWrite 1 0 (.co []))) (.hostWrite 1 0 (.co [])) [] ∧ Config.reference.nslaves ≤ 1 := by decide
theorem witness_ProtocolPortCannotWriteInputs :
    Memory.wf Config.reference State.reset.banks = true ∧
    NextEvent (holding [0x06#8, 0x00#8, 0x05#8, 0x00#8, 0x07#8]) .tick [] ∧
    (next? (step (holding [0x06#8, 0x00#8, 0x05#8, 0x00#8, 0x07#8]))).isSome = true ∧
    NextEvent (given (.hostWrite 0 9 (.di [true]))) (.hostWrite 0 9 (.di [true])) [] ∧ InBank Config.reference 0 .di 9 1 ∧
    NextEvent (given (.hostWrite 0 3 (.ir [5#16]))) (.hostWrite 0 3 (.ir [5#16])) [] ∧
    InBank Config.reference 0 .ir 3 1 := by decide +kernel
theorem witness_ResetRestoresInitialState :
    NextEvent (sending .reset) .reset [] ∧ NextEvent (given .reset) .reset [] ∧ (sending .reset).cfg = (given .reset).cfg ∧
    sending .reset ≠ given .reset ∧ (next? (step (sending .reset))).isSome = true := by decide
theorem witness_ResetMeetsTheInvariant : Config.reference.wf = true ∧ t2.wf = true := by decide
theorem witness_ResetValues : ∃ c, t2.slaves[1]? = some c := ⟨_, rfl⟩
/-- T1 with two ticks of silence and one byte received. -/
def halfway : State := { received { Config.reference with t35Ticks := 2 } [1#8] with idleCnt := 0 }

/-- In each phase a state that meets the invariant, and each steps: of `StepKeepsTheInvariant`, `PhaseMovesByTheTable`,
`LegalEventsNeverStopTheBlock`, `ConfigurationNeverChanges`, `ReachableStatesMeetTheInvariant`. -/
theorem witness_Inv_idle : State.reset.Inv := by decide +kernel
theorem witness_Inv_receive : (holding [0x03#8]).Inv := by decide +kernel
theorem witness_Inv_short_frame : (received Config.reference [1#8]).Inv := by decide +kernel
theorem witness_Inv_halfway : halfway.Inv := by decide +kernel
theorem witness_Inv_transmit : (sending .txTake).Inv := by decide +kernel
theorem witness_StepKeepsTheInvariant :
    (next? (step (holding [0x03#8]))).isSome = true ∧ (next? (step (sending .txTake))).isSome = true ∧
    (next? (step halfway)).isSome = true ∧ Input.txTake.legal Config.reference = true ∧
    (Input.hostRead 0 .co 0 1).legal Config.reference = true := by decide +kernel
theorem witness_ConfigurationNeverChanges : (next? (step (given .reset))).isSome = true := by decide
theorem witness_LegalEventsNeverStopTheBlock :
    (given .tick).Inv ∧ (∀ e ∈ (given .tick).inputs.head?, e.legal (given .tick).cfg = true) := by decide +kernel
/-- A state reached by a step: T1 after reset and a received byte. -/
theorem witness_ReachableStatesMeetTheInvariant :
    Config.reference.wf = true ∧
    Reachable Config.reference { State.reset with rxBuf := [7#8], phase := .receive } := by
  exact ⟨by decide, .step (.schedule [.rxByte 7#8] .init) rfl⟩
theorem witness_PhaseMovesByTheTable :
    NextEvent halfway .tick [] ∧ halfway.phase = .receive ∧ halfway.idleCnt + 1 < halfway.cfg.t35Ticks ∧
    (let s := holding [0x03#8];
      NextEvent s .tick [] ∧ s.phase = .receive ∧ s.idleCnt + 1 = s.cfg.t35Ticks ∧ HoldsRequest s 1#8 0 [0x03#8]) ∧
    (let s := received Config.reference [1#8];
      NextEvent s .tick [] ∧ s.phase = .receive ∧ s.idleCnt + 1 = s.cfg.t35Ticks) ∧
    NextEvent (sending .txTake) .txTake [] ∧ (sending .txTake).phase = .transmit := by decide +kernel
theorem witness_ObsOnlyAtAnAcceptedFrame :
    (answer (rtuFrame 1#8 [0x06#8, 0x00#8, 0x05#8, 0x00#8, 0x07#8])).map (fun a => (a.2.filter Output.isObs).length) =
      some 1 := by decide +kernel
theorem witness_NothingHappensWithoutAnEvent : State.reset.cfg.wf = true ∧ State.reset.inputs = [] := by decide

end Witnesses

end Sys2Proof.Tests
end

section
/-! PROOF. What each input event can end in: the host port (44_host_port.md R191, R192), the transmitter
(40_frame_codec.md R118), the tick and the frame end (R111, R112), and a whole step. -/

namespace Sys2Proof.Machine

section HostAccesses

variable {s : State} {sl addr : Nat}

/-- A host read of a slave that exists is answered, and changes nothing but the record of outputs (R191, R193). -/
theorem hostRead_of_lt (h : sl < s.cfg.nslaves) (k : Kind) (count : Nat) :
    ∃ reply, hostRead sl k addr count s = .next (emit (.hostResult reply) s) := by
  rcases memRead_cases s sl k addr count with ⟨_, hm⟩ | ⟨_, hm⟩
  · exact ⟨.values ((Memory.bank s.banks sl k).slice addr count), by simp [hostRead, h, hm]⟩
  · exact ⟨.addressingFault, by simp [hostRead, h, hm]⟩

theorem hostRead_of_ge (h : s.cfg.nslaves ≤ sl) (k : Kind) (count : Nat) :
    hostRead sl k addr count s = .refused .illegalHostEvent := by
  simp [hostRead, Nat.not_lt.mpr h]

/-- A host write to a slave that exists is answered, and changes nothing but the banks and the record of outputs
(R192, R193). -/
theorem hostWrite_of_lt (h : sl < s.cfg.nslaves) (v : BankValues) :
    ∃ reply m, hostWrite sl addr v s = .next (emit (.hostResult reply) { s with banks := m }) := by
  rcases memWrite_cases s sl addr v with ⟨_, hm⟩ | ⟨_, hm⟩
  · exact ⟨.ok, s.banks.modify sl fun b => b.write addr v, by simp [hostWrite, h, hm]⟩
  · exact ⟨.addressingFault, s.banks, by simp [hostWrite, h, hm]⟩

theorem hostWrite_of_ge (h : s.cfg.nslaves ≤ sl) (v : BankValues) :
    hostWrite sl addr v s = .refused .illegalHostEvent := by
  simp [hostWrite, Nat.not_lt.mpr h]

end HostAccesses

theorem takeByte_of_not_transmit {s : State} (h : s.phase ≠ .transmit) : takeByte s = .next s := by
  unfold takeByte
  cases hp : s.phase with
  | idle | receive => rfl
  | transmit => exact absurd hp h

/-- With a byte at `tx_pos` it leaves, and the last one returns the block to `IDLE` (R118). -/
theorem takeByte_of_transmit {s : State} (hp : s.phase = .transmit) (hb : s.txPos < s.txBuf.length) :
    takeByte s = .next (emit (.txByte s.txBuf[s.txPos])
      (if s.txPos + 1 < s.txBuf.length then { s with txPos := s.txPos + 1 }
      else { s with txBuf := [], txPos := 0, phase := .idle })) := by
  unfold takeByte
  by_cases hl : s.txPos + 1 < s.txBuf.length <;> simp [hp, hb, hl]

/-- The transmitter finds a byte at `tx_pos` wherever R33 holds of the transmit side. -/
theorem takeByte_next {s : State} (h : TransmitIsFramed s) : ∃ t, takeByte s = .next t := by
  by_cases hp : s.phase = .transmit
  · obtain ⟨_, _, hpos, _⟩ := h hp
    exact ⟨_, takeByte_of_transmit hp hpos⟩
  · exact ⟨s, takeByte_of_not_transmit hp⟩

/-- The dispatch of a PDU ends in the request's effect or in an exception response, never in a stop (R133). -/
theorem dispatchPdu_next (u : Byte) (p : List Byte) (s : State) : ∃ t, dispatchPdu u p s = .next t := by
  rcases dispatchPdu_cases u p s with ⟨i, _, h⟩ | ⟨e, _, h⟩
  · exact h ▸ exec_next i s
  · exact ⟨_, h⟩

/-- The frame end drops the frame or answers it (R112). -/
theorem frameEnd_next (s : State) : ∃ t, frameEnd s = .next t := by
  rcases frameEnd_cases s with ⟨_, h⟩ | ⟨u, _, _, _, _, _, h⟩
  · exact ⟨_, h⟩
  · obtain ⟨t, ht⟩ := dispatchPdu_next u (framePdu s.rxBuf) s
    exact ⟨consumeFrame t, by rw [h, ht]; rfl⟩

theorem tick_of_not_receive {s : State} (h : s.phase ≠ .receive) : tick s = .next s := by
  unfold tick
  cases hp : s.phase with
  | idle | transmit => rfl
  | receive => exact absurd hp h

/-- In phase `RECEIVE` a tick counts the silence or ends the frame (R111). -/
theorem tick_of_receive {s : State} (h : s.phase = .receive) :
    tick s = if s.idleCnt + 1 < s.cfg.t35Ticks then .next { s with idleCnt := s.idleCnt + 1 } else frameEnd s := by
  simp [tick, h]

theorem tick_next (s : State) : ∃ t, tick s = .next t := by
  by_cases hp : s.phase = .receive
  · rw [tick_of_receive hp]
    split
    · exact ⟨_, rfl⟩
    · exact frameEnd_next s
  · exact ⟨s, tick_of_not_receive hp⟩

/-- A legal event has a next state: only the transmitter needs the invariant, and of it only the clause on `TRANSMIT`. -/
theorem react_next {e : Input} {s : State} (ht : TransmitIsFramed s) (hl : e.legal s.cfg = true) :
    ∃ t, react e s = .next t := by
  cases e with
  | rxByte b => exact ⟨_, rfl⟩
  | tick => exact tick_next s
  | txTake => exact takeByte_next ht
  | hostRead sl k addr count =>
    obtain ⟨_, h⟩ := hostRead_of_lt (of_decide_eq_true hl) k count
    exact ⟨_, h⟩
  | hostWrite sl addr v =>
    obtain ⟨_, _, h⟩ := hostWrite_of_lt (of_decide_eq_true hl) v
    exact ⟨_, h⟩
  | reset => exact ⟨_, rfl⟩

theorem step_of_ill_formed {s : State} (h : s.cfg.wf = false) : step s = .refused .illFormedConfiguration := by
  simp [step, stepBlock, h]

theorem step_of_no_event {s : State} (hw : s.cfg.wf = true) (h : s.inputs = []) : step s = .next s := by
  simp [step, stepBlock, hw, h]

/-- Settles O52: with no event scheduled the state stays, and a legal event's reaction has a next state. -/
theorem legalEventsNeverStopTheBlock : Obligations.LegalEventsNeverStopTheBlock := by
  intro s ⟨hw, _, _, _, _, htx⟩ hlegal
  cases hi : s.inputs with
  | nil => exact ⟨s, step_of_no_event hw hi⟩
  | cons e rest =>
    rw [step_of_next ⟨hw, hi⟩]
    exact react_next (s := { s with inputs := rest }) htx (hlegal e (by simp [hi]))

/-- Settles O45, by the check on the configuration and the two on the slave index. -/
theorem illegalSetupAndHostEventsRefused : Obligations.IllegalSetupAndHostEventsRefused := by
  refine ⟨fun s hw => step_of_ill_formed hw, fun s sl k addr count rest hn hge => ?_, fun s sl addr v rest hn hge => ?_⟩
  · rw [step_of_next hn]
    exact hostRead_of_ge (s := { s with inputs := rest }) hge k count
  · rw [step_of_next hn]
    exact hostWrite_of_ge (s := { s with inputs := rest }) hge v

end Sys2Proof.Machine
end

section
/-! PROOF. What a write does to the elements (20_memory.md R54), and what a request handler that succeeds returns
(41_request_decoder.md R133). -/

namespace Sys2Proof.Machine

/-- An element after a range was written into a bank: the value written inside the range, else as before (R54). -/
theorem element_of_modify {s t : State} {sl addr : Nat} {v : BankValues} (hm : Memory.wf s.cfg s.banks = true)
    (hb : InBank s.cfg sl v.kind addr v.length) (ht : t.banks = s.banks.modify sl fun b => b.write addr v)
    (sl' : Nat) (k : Kind) (i : Nat) :
    t.element sl' k i =
      if sl' = sl ∧ k = v.kind ∧ addr ≤ i ∧ i < addr + v.length then v.numbers[i - addr]?
      else s.element sl' k i := by
  have hlt : sl < s.banks.length := by rw [banksWf_length hm]; exact present_lt hb.1
  rw [State.element, State.element, ht, bank_modify_numbers _ _ _ _ _ _ hlt]
  by_cases hk : sl' = sl ∧ k = v.kind
  · obtain ⟨rfl, rfl⟩ := hk
    have hr : addr + v.numbers.length ≤ (Memory.bank s.banks sl' v.kind).numbers.length := by
      rw [numbers_length, numbers_length, bank_length hm]; exact hb.2
    simp [splice_getElem? hr]
  · rw [if_neg hk, if_neg fun h => hk ⟨h.1, h.2.1⟩]

/-- A write leaves the banks of every other kind, whatever its range. -/
theorem bank_modify_of_ne_kind {k : Kind} {v : BankValues} (h : k ≠ v.kind) (m : Memory) (sl addr sl' : Nat) :
    (Memory.bank (m.modify sl fun b => b.write addr v) sl' k).numbers = (Memory.bank m sl' k).numbers := by
  unfold Memory.bank
  rw [List.getElem?_modify]
  cases m[sl']? with
  | none => rfl
  | some b => by_cases hs : sl = sl' <;> simp [hs, write_get, h]

/-- The elements after reset are those of `INIT` (R37). -/
theorem element_init {cfg : Config} {sl : Nat} {c : SlaveConfig} (h : cfg.slaves[sl]? = some c) (k : Kind) (i : Nat) :
    (State.init cfg).element sl k i = ((initialSlaveBanks c).get k).numbers[i]? := by
  simp [State.element, Memory.bank, initialBanks, h]

/-- Settles O48, by the elements after reset. -/
theorem resetValues : Obligations.ResetValues := by
  refine ⟨fun cfg sl c hc i => ?_, fun cfg => ⟨rfl, rfl, rfl, rfl, rfl, rfl⟩⟩
  simp [element_init hc, initialSlaveBanks, SlaveBanks.get, BankValues.numbers]

section Handlers

variable {s : State} {sl : Nat} {r : Reply}

theorem readRequest_ok {fc : Byte} {k : Kind} {a q : Word} (h : readRequest fc k a q s sl = .ok r) :
    q.toNat ≤ readLimit k ∧ r.banks = s.banks ∧
      r.response = .data fc (BitVec.ofNat 8 (readByteCount k q.toNat))
        ((Memory.bank s.banks sl k).slice a.toNat q.toNat).pack := by
  rcases readRequest_cases fc k a q s sl with ⟨_, e⟩ | ⟨_, _, e⟩ | ⟨hq, _, e⟩ <;> rw [e] at h <;> cases h
  exact ⟨hq.2, rfl, rfl⟩

theorem writeRequest_ok {a : Word} {v : BankValues} {p : Response} (h : writeRequest a v p s sl = .ok r) :
    InBank s.cfg sl v.kind a.toNat v.length ∧ r.banks = (s.banks.modify sl fun b => b.write a.toNat v) ∧
      r.response = p := by
  rcases writeRequest_cases a v p s sl with ⟨_, e⟩ | ⟨hi, e⟩ <;> rw [e] at h <;> cases h
  exact ⟨hi, rfl, rfl⟩

theorem batchWriteRequest_ok {limit : Nat} {a : Word} {v : BankValues} {p : Response}
    (h : batchWriteRequest limit a v p s sl = .ok r) : writeRequest a v p s sl = .ok r := by
  rcases batchWriteRequest_cases limit a v p s sl with ⟨_, e⟩ | ⟨_, e⟩ <;> rw [e] at h
  · cases h
  · exact h

/-- A handler that succeeds leaves the banks, or writes exactly the range its request addresses (R22, R170). -/
theorem handlerOf_writeRange {i : Instr} (h : handlerOf i s sl = .ok r) :
    r.banks = s.banks ∨ ∃ addr v, writeRange i = some (v.kind, addr, v.length) ∧
      InBank s.cfg sl v.kind addr v.length ∧ r.banks = s.banks.modify sl fun b => b.write addr v := by
  have write : ∀ {a v p}, writeRange i = some (v.kind, a.toNat, v.length) → writeRequest a v p s sl = .ok r →
      ∃ addr v, writeRange i = some (v.kind, addr, v.length) ∧ InBank s.cfg sl v.kind addr v.length ∧
        r.banks = s.banks.modify sl fun b => b.write addr v := fun hrange hw =>
    have ⟨hin, hbanks, _⟩ := writeRequest_ok hw
    ⟨_, _, hrange, hin, hbanks⟩
  cases i with
  | rdco a q | rddi a q | rdhr a q | rdir a q => exact .inl (readRequest_ok h).2.1
  | wrco a b | wrhr a v => exact .inr (write rfl h)
  | wrmco a bs | wrmhr a vs => exact .inr (write rfl (batchWriteRequest_ok h))

theorem pack_length (v : BankValues) : v.pack.length = readByteCount v.kind v.length := by
  cases v <;> simp [BankValues.pack, BankValues.kind, BankValues.length, readByteCount, bitKind]

/-- The data of a read response take at most 250 bytes (R10, R74). -/
theorem readByteCount_le {k : Kind} {n : Nat} (h : n ≤ readLimit k) : readByteCount k n ≤ 250 := by
  cases k <;> simp [readLimit, readByteCount, bitKind, maxRdBits, maxRdRegs, ceil8] at h ⊢ <;> omega

@[simp] theorem twoFieldPdu_length (fc : Byte) (a b : Word) : (twoFieldPdu fc a b).length = 5 := rfl

/-- The response PDU of a handler that succeeds fits the response buffer with its unit identifier and CRC (R33). -/
theorem handlerOf_response_length {i : Instr} (h : handlerOf i s sl = .ok r) :
    2 ≤ (encodeResponse r.response).length ∧ (encodeResponse r.response).length ≤ 252 := by
  have read : ∀ {fc k a q}, readRequest fc k a q s sl = .ok r →
      2 ≤ (encodeResponse r.response).length ∧ (encodeResponse r.response).length ≤ 252 := fun {fc k a q} hr => by
    obtain ⟨hq, _, hresp⟩ := readRequest_ok hr
    have hlen : ((Memory.bank s.banks sl k).slice a.toNat q.toNat).length ≤ readLimit k :=
      (slice_values_length_le ..).trans hq
    have hpack := readByteCount_le hlen
    simp [hresp, encodeResponse, pack_length]; omega
  have write : ∀ {a v fc x y}, writeRequest a v (.single fc x y) s sl = .ok r ∨
      writeRequest a v (.batch fc x y) s sl = .ok r →
      2 ≤ (encodeResponse r.response).length ∧ (encodeResponse r.response).length ≤ 252 := fun hw => by
    rcases hw with hw | hw <;> simp [(writeRequest_ok hw).2.2, encodeResponse]
  cases i with
  | rdco a q | rddi a q | rdhr a q | rdir a q => exact read h
  | wrco a b | wrhr a v => exact write (.inl h)
  | wrmco a bs | wrmhr a vs => exact write (.inr (batchWriteRequest_ok h))

end Handlers

end Sys2Proof.Machine
end

section
/-! PROOF. What the frame end leaves (40_frame_codec.md R112 to R116), and every way an event's reaction can end. -/

namespace Sys2Proof.Machine

/-- A frame built by R104 passes the CRC check (R103). -/
theorem crcOk_rtuFrame (u : Byte) (p : List Byte) : crcOk (rtuFrame u p) = true := by
  rw [rtuFrame, crcBytes, crcOk_append, be16_hi8_lo8, beq_self_eq_true]

/-- A byte sequence that passes the length and CRC checks is the frame of its PDU (R70, R104). -/
theorem eq_rtuFrame_of_crcOk {u : Byte} {f : List Byte} (hl : 4 ≤ f.length) (hc : crcOk f = true)
    (hu : f.head? = some u) : f = rtuFrame u (framePdu f) ∧ framePdu f ≠ [] := by
  have hhead : u :: framePdu f = f.take (f.length - 2) := by
    rw [framePdu, List.drop_one]
    exact List.cons_head?_tail (by rw [List.head?_take, if_neg (by omega)]; exact hu)
  constructor
  · rw [rtuFrame, hhead, eq_of_beq hc, crcBytes, lo8_be16, hi8_be16]
    exact frame_split (by omega)
  · rw [← List.length_pos_iff]
    simp only [framePdu, List.length_drop, List.length_take]; omega

/-- A held request passes the framing checks, and its PDU is dispatched (R112). -/
theorem frameEnd_of_holds {s : State} {u : Byte} {sl : Nat} {p : List Byte} (h : HoldsRequest s u sl p) :
    frameEnd s = consumeAfter (dispatchPdu u p s) := by
  have ht := target_of_serves h.serves
  obtain ⟨hovf, hbuf, hp, _⟩ := h
  have hlen : ¬ (rtuFrame u p).length < 4 := by
    have := List.length_pos_iff.mpr hp
    rw [rtuFrame_length]; omega
  rw [frameEnd, ht, hovf, hbuf, if_neg Bool.false_ne_true, if_neg hlen, if_pos (crcOk_rtuFrame u p), framePdu_rtuFrame]

/-- What a dispatched PDU may do to the banks: nothing, or write one range of coils or holding registers (R22). -/
abbrev LineWrites (s : State) (m : Memory) : Prop :=
  m = s.banks ∨ ∃ sl addr v, (v.kind = .co ∨ v.kind = .hr) ∧ InBank s.cfg sl v.kind addr v.length ∧
    m = s.banks.modify sl fun b => b.write addr v

/-- A request from unit `u` is answered in `t`: a response that fits its buffer is loaded, and only the banks and the
events emitted change beside it (R116). -/
abbrev Answered (s : State) (u : Byte) (t : State) : Prop :=
  ∃ r m es, t = respond u r { s with banks := m, outputs := s.outputs ++ es } ∧
    2 ≤ (encodeResponse r).length ∧ (encodeResponse r).length ≤ 252 ∧ LineWrites s m

/-- An exception is answered by two bytes of PDU, and is all the request's effect (R203). -/
theorem takeException_answered (u fc : Byte) (e : ExcCode) (s : State) :
    Answered s u (takeException u fc e s) :=
  ⟨.exception fc e, s.banks, [], by simp [takeException], by simp [encodeResponse], by simp [encodeResponse], .inl rfl⟩

/-- The PDU of a routed frame is answered, by the request's response or an exception (R133). -/
theorem dispatchPdu_answered {s t : State} {u : Byte} {sl : Nat} {p : List Byte} (hs : Serves s u sl)
    (h : dispatchPdu u p s = .next t) : Answered s u t := by
  rcases dispatchPdu_cases u p s with ⟨i, _, hd⟩ | ⟨e, _, hd⟩ <;> rw [hd] at h
  · rcases exec_cases h with ⟨_, htgt, _⟩ | ⟨_, _, e, htgt, _, rfl⟩ | ⟨_, _, r, htgt, hr, rfl⟩ <;>
      rw [target_of_serves hs] at htgt <;> cases htgt
    · exact takeException_answered ..
    · obtain ⟨hmin, hmax⟩ := handlerOf_response_length hr
      refine ⟨r.response, r.banks, [r.obs], rfl, hmin, hmax, ?_⟩
      rcases handlerOf_ok hr with ⟨_, _, _, _, hbanks, _⟩ | ⟨addr, v, hk, hin, hbanks, _⟩
      · exact .inl hbanks
      · exact .inr ⟨sl, addr, v, hk, hin, hbanks⟩
  · cases h
    exact takeException_answered ..

/-- The frame end drops a frame in which no request is held, and answers one in which a request is (R112). -/
theorem frameEnd_dropped_or_answered {s t : State} (h : frameEnd s = .next t) :
    (∃ r, t = drop r (consumeFrame s) ∧ ∀ u sl p, ¬ HoldsRequest s u sl p) ∨
    (∃ u sl p t', HoldsRequest s u sl p ∧ Answered s u t' ∧ t = consumeFrame t') := by
  have answered : ∀ {u sl p}, HoldsRequest s u sl p → ∃ t', Answered s u t' ∧ t = consumeFrame t' := fun hh => by
    rw [frameEnd_of_holds hh] at h
    obtain ⟨t', hd, rfl⟩ := consumeAfter_next h
    exact ⟨t', dispatchPdu_answered hh.serves hd, rfl⟩
  rcases frameEnd_cases s with ⟨r, he⟩ | ⟨u, sl, hovf, hlen, hcrc, htgt, _⟩
  · rw [he] at h
    cases h
    refine .inl ⟨r, rfl, fun u sl p hh => ?_⟩
    obtain ⟨_, ⟨_, _, _, rfl, _⟩, ht⟩ := answered hh
    cases congrArg State.phase ht
  · have hserves := serves_of_target htgt
    obtain ⟨hbuf, hp⟩ := eq_rtuFrame_of_crcOk hlen hcrc hserves.1
    have hh : HoldsRequest s u sl (framePdu s.rxBuf) := ⟨hovf, hbuf, hp, hserves.2⟩
    obtain ⟨t', ht'⟩ := answered hh
    exact .inr ⟨u, sl, _, t', hh, ht'⟩

section Reactions

variable {s t : State}

theorem receiveByte_of_transmit (h : s.phase = .transmit) (b : Byte) : receiveByte b s = emit (.rxIgnored b) s := by
  simp [receiveByte, h]

theorem receiveByte_of_not_transmit (h : s.phase ≠ .transmit) (b : Byte) :
    receiveByte b s =
      { s with
        rxBuf := if s.rxBuf.length < rxMax then s.rxBuf ++ [b] else s.rxBuf
        rxOvf := overflowAfterByte s
        idleCnt := 0
        phase := .receive } := by
  cases hp : s.phase with
  | idle | receive => simp [receiveByte, hp]
  | transmit => exact absurd hp h

@[simp] theorem receiveByte_cfg (b : Byte) (s : State) : (receiveByte b s).cfg = s.cfg := by
  by_cases h : s.phase = .transmit
  · rw [receiveByte_of_transmit h, emit_cfg]
  · rw [receiveByte_of_not_transmit h]

@[simp] theorem receiveByte_banks (b : Byte) (s : State) : (receiveByte b s).banks = s.banks := by
  by_cases h : s.phase = .transmit
  · rw [receiveByte_of_transmit h, emit_banks]
  · rw [receiveByte_of_not_transmit h]

theorem receiveByte_phase (b : Byte) (s : State) :
    (receiveByte b s).phase = if s.phase = .transmit then .transmit else .receive := by
  by_cases h : s.phase = .transmit
  · rw [receiveByte_of_transmit h, emit_phase, if_pos h, h]
  · rw [receiveByte_of_not_transmit h, if_neg h]

/-- Everything the transmitter's event can do: nothing outside `TRANSMIT`, send a byte, or send the last one (R118). -/
theorem takeByte_cases (h : takeByte s = .next t) :
    (s.phase ≠ .transmit ∧ t = s) ∨
    (s.phase = .transmit ∧ s.txPos + 1 < s.txLen ∧ ∃ b, t = emit (.txByte b) { s with txPos := s.txPos + 1 }) ∨
    (s.phase = .transmit ∧ ¬ s.txPos + 1 < s.txLen ∧
      ∃ b, t = emit (.txByte b) { s with txBuf := [], txPos := 0, phase := .idle }) := by
  by_cases hp : s.phase = .transmit
  · by_cases hb : s.txPos < s.txBuf.length
    · rw [takeByte_of_transmit hp hb] at h
      by_cases hl : s.txPos + 1 < s.txBuf.length
      · rw [if_pos hl] at h
        cases h
        exact .inr (.inl ⟨hp, hl, _, rfl⟩)
      · rw [if_neg hl] at h
        cases h
        exact .inr (.inr ⟨hp, hl, _, rfl⟩)
    · simp [takeByte, hp, hb] at h
  · rw [takeByte_of_not_transmit hp] at h
    cases h
    exact .inl ⟨hp, rfl⟩

/-- Everything a tick can do: nothing outside `RECEIVE`, count the silence, or end the frame (R111). -/
theorem tick_cases (h : tick s = .next t) :
    (s.phase ≠ .receive ∧ t = s) ∨
    (s.phase = .receive ∧ s.idleCnt + 1 < s.cfg.t35Ticks ∧ t = { s with idleCnt := s.idleCnt + 1 }) ∨
    (s.phase = .receive ∧ ¬ s.idleCnt + 1 < s.cfg.t35Ticks ∧ frameEnd s = .next t) := by
  by_cases hp : s.phase = .receive
  · rw [tick_of_receive hp] at h
    by_cases hc : s.idleCnt + 1 < s.cfg.t35Ticks
    · rw [if_pos hc] at h
      cases h
      exact .inr (.inl ⟨hp, hc, rfl⟩)
    · rw [if_neg hc] at h
      exact .inr (.inr ⟨hp, hc, h⟩)
  · rw [tick_of_not_receive hp] at h
    cases h
    exact .inl ⟨hp, rfl⟩

theorem hostRead_cases {sl addr count : Nat} {k : Kind} (h : hostRead sl k addr count s = .next t) :
    ∃ reply, t = emit (.hostResult reply) s := by
  by_cases hs : sl < s.cfg.nslaves
  · obtain ⟨reply, e⟩ := hostRead_of_lt (addr := addr) hs k count
    rw [e] at h
    cases h
    exact ⟨reply, rfl⟩
  · rw [hostRead_of_ge (Nat.le_of_not_lt hs)] at h
    cases h

/-- A host write inside a bank is done (R192). -/
theorem hostWrite_of_inBank {sl addr : Nat} {v : BankValues} (h : InBank s.cfg sl v.kind addr v.length) :
    hostWrite sl addr v s =
      .next (emit (.hostResult .ok) { s with banks := s.banks.modify sl fun b => b.write addr v }) := by
  rcases memWrite_cases s sl addr v with ⟨_, e⟩ | ⟨hn, _⟩
  · simp [hostWrite, present_lt h.1, e]
  · exact absurd h hn

/-- Everything a host write can do: leave the banks, or write its range inside a bank (R192). -/
theorem hostWrite_cases {sl addr : Nat} {v : BankValues} (h : hostWrite sl addr v s = .next t) :
    ∃ reply m, t = emit (.hostResult reply) { s with banks := m } ∧
      (m = s.banks ∨ InBank s.cfg sl v.kind addr v.length ∧ m = s.banks.modify sl fun b => b.write addr v) := by
  by_cases hb : InBank s.cfg sl v.kind addr v.length
  · rw [hostWrite_of_inBank hb] at h
    cases h
    exact ⟨_, _, rfl, .inr ⟨hb, rfl⟩⟩
  · by_cases hs : sl < s.cfg.nslaves
    · rcases memWrite_cases s sl addr v with ⟨hi, _⟩ | ⟨_, e⟩
      · exact absurd hi hb
      · simp only [hostWrite, hs, e, if_true] at h
        cases h
        exact ⟨_, s.banks, rfl, .inl rfl⟩
    · rw [hostWrite_of_ge (Nat.le_of_not_lt hs)] at h
      cases h

theorem frameEnd_cfg (h : frameEnd s = .next t) : t.cfg = s.cfg := by
  rcases frameEnd_dropped_or_answered h with ⟨r, rfl, _⟩ | ⟨_, _, _, _, _, ⟨_, _, _, rfl, _⟩, rfl⟩ <;> simp

theorem frameEnd_banks (h : frameEnd s = .next t) : LineWrites s t.banks := by
  rcases frameEnd_dropped_or_answered h with ⟨r, rfl, _⟩ | ⟨_, _, _, _, _, ⟨_, _, _, rfl, _, _, hw⟩, rfl⟩
  · exact .inl (by simp)
  · simpa using hw

theorem tick_banks (h : tick s = .next t) : LineWrites s t.banks := by
  rcases tick_cases h with ⟨_, rfl⟩ | ⟨_, _, rfl⟩ | ⟨_, _, hf⟩
  · exact .inl rfl
  · exact .inl rfl
  · exact frameEnd_banks hf

theorem takeByte_banks (h : takeByte s = .next t) : t.banks = s.banks := by
  rcases takeByte_cases h with ⟨_, rfl⟩ | ⟨_, _, _, rfl⟩ | ⟨_, _, _, rfl⟩ <;> rfl

/-- No event changes the configuration (R34). -/
theorem react_cfg {e : Input} (h : react e s = .next t) : t.cfg = s.cfg := by
  cases e with
  | rxByte b => cases h; exact receiveByte_cfg b s
  | tick =>
    rcases tick_cases h with ⟨_, rfl⟩ | ⟨_, _, rfl⟩ | ⟨_, _, hf⟩
    · rfl
    · rfl
    · exact frameEnd_cfg hf
  | txTake => rcases takeByte_cases h with ⟨_, rfl⟩ | ⟨_, _, _, rfl⟩ | ⟨_, _, _, rfl⟩ <;> rfl
  | hostRead sl k addr count => obtain ⟨_, rfl⟩ := hostRead_cases h; rfl
  | hostWrite sl addr v => obtain ⟨_, _, rfl, _⟩ := hostWrite_cases h; rfl
  | reset => cases h; rfl

end Reactions

/-- Settles O53: no event changes the configuration, nor does the absence of one. -/
theorem configurationNeverChanges : Obligations.ConfigurationNeverChanges := by
  intro s t h
  obtain ⟨_, ⟨_, rfl⟩ | ⟨e, rest, _, hr⟩⟩ := step_cases h
  · rfl
  · exact react_cfg (s := { s with inputs := rest }) hr

end Sys2Proof.Machine
end

section
/-! PROOF. The frame of a request (10_state.md R22, 43_write_requests.md R170), what the line cannot write (60_exceptions.md
R213), and how events move the phase (10_state.md R32). -/

namespace Sys2Proof.Machine

/-- What a request leaves of the receive side, and that it emits at most one event (R170, R203). -/
theorem exec_sameReceiveSide {i : Instr} {s t : State} (h : exec i s = .next t) :
    SameReceiveSide s t ∧ ∃ es, es.length ≤ 1 ∧ t.outputs = s.outputs ++ es := by
  rcases exec_cases h with ⟨r, _, rfl⟩ | ⟨_, _, _, _, _, rfl⟩ | ⟨_, _, r, _, _, rfl⟩
  · exact ⟨⟨rfl, rfl, rfl, rfl, rfl⟩, [.drop r], by simp⟩
  · exact ⟨⟨rfl, rfl, rfl, rfl, rfl⟩, [], by simp⟩
  · exact ⟨⟨rfl, rfl, rfl, rfl, rfl⟩, [r.obs], by simp⟩

/-- What a request does to the banks: nothing, or write the range it addresses in the slave it is routed to (R22). -/
theorem exec_banks {i : Instr} {s t : State} (h : exec i s = .next t) :
    t.banks = s.banks ∨ ∃ u sl addr v, Serves s u sl ∧ writeRange i = some (v.kind, addr, v.length) ∧
      InBank s.cfg sl v.kind addr v.length ∧ t.banks = s.banks.modify sl fun b => b.write addr v := by
  rcases exec_cases h with ⟨_, _, rfl⟩ | ⟨_, _, _, _, _, rfl⟩ | ⟨u, sl, r, htgt, hr, rfl⟩
  · exact .inl rfl
  · exact .inl rfl
  · rcases handlerOf_writeRange hr with hb | ⟨addr, v, hrange, hin, hb⟩
    · exact .inl (by simpa using hb)
    · exact .inr ⟨u, sl, addr, v, serves_of_target htgt, hrange, hin, by simpa using hb⟩

/-- An element is read from the banks alone. -/
theorem element_congr {s t : State} (h : t.banks = s.banks) (sl : Nat) (k : Kind) (i : Nat) :
    t.element sl k i = s.element sl k i := by simp [State.element, h]

/-- Settles O35: the element that changes lies in the range the request addresses. -/
theorem requestsLeaveTheRest : Obligations.RequestsLeaveTheRest := by
  intro i s t hm h
  obtain ⟨hsame, hout⟩ := exec_sameReceiveSide h
  refine ⟨hsame, hout, fun sl k a hfree => ?_⟩
  rcases exec_banks h with hb | ⟨u, sl', addr, v, hserves, hrange, hin, hb⟩
  · exact element_congr hb sl k a
  · rw [element_of_modify hm hin hb, if_neg]
    rintro ⟨rfl, hin'⟩
    exact hfree u _ _ _ hserves hrange hin'

/-- What the line writes are no elements of the discrete inputs or of the input registers (R22). -/
theorem LineWrites.element_eq {s t : State} (h : LineWrites s t.banks) {k : Kind} (hk : k = .di ∨ k = .ir)
    (sl i : Nat) : t.element sl k i = s.element sl k i := by
  rcases h with hb | ⟨sl', addr, v, hv, _, hb⟩
  · exact element_congr hb sl k i
  · have hne : k ≠ v.kind := by
      rcases hk with rfl | rfl <;> rcases hv with hv | hv <;> simp [hv]
    rw [State.element, State.element, hb, bank_modify_of_ne_kind hne]

/-- A received byte, a tick and the transmitter write coils and holding registers only (R213). -/
theorem react_lineWrites {e : Input} {s t : State} (he : e = .tick ∨ e = .txTake ∨ ∃ b, e = .rxByte b)
    (h : react e s = .next t) : LineWrites s t.banks := by
  rcases he with rfl | rfl | ⟨b, rfl⟩
  · exact tick_banks h
  · exact .inl (takeByte_banks h)
  · cases h
    exact .inl (receiveByte_banks b s)

/-- A host write of one element is read back at its address (R192). -/
theorem hostWrite_one_element {s : State} {sl addr : Nat} {v : BankValues} {rest : List Input}
    (hm : Memory.wf s.cfg s.banks = true) (hn : NextEvent s (.hostWrite sl addr v) rest) (hl : v.length = 1)
    (hb : InBank s.cfg sl v.kind addr 1) :
    ∃ t, step s = .next t ∧ t.element sl v.kind addr = v.numbers[0]? := by
  rw [← hl] at hb
  refine ⟨_, (step_of_next hn).trans (hostWrite_of_inBank (s := { s with inputs := rest }) hb), ?_⟩
  rw [element_of_modify hm hb rfl]
  simp [hl]

/-- Settles O46: the line writes coils and holding registers only; a host write of one element is read back. -/
theorem protocolPortCannotWriteInputs : Obligations.ProtocolPortCannotWriteInputs := by
  refine ⟨fun s t e rest hn he h sl i => ?_, fun s sl addr b w rest hm => ⟨fun hn hb => ?_, fun hn hb => ?_⟩⟩
  · rw [step_of_next hn] at h
    have hw : LineWrites s t.banks := react_lineWrites (s := { s with inputs := rest }) he h
    exact ⟨hw.element_eq (.inl rfl) sl i, hw.element_eq (.inr rfl) sl i⟩
  · exact hostWrite_one_element hm hn rfl hb
  · exact hostWrite_one_element hm hn rfl hb

section PhaseMoves

variable {s t : State}

theorem takeByte_phase (hp : s.phase = .transmit) (h : takeByte s = .next t) :
    t.phase = if s.txPos + 1 < s.txLen then .transmit else .idle := by
  rcases takeByte_cases h with ⟨hn, _⟩ | ⟨_, hl, _, rfl⟩ | ⟨_, hl, _, rfl⟩
  · exact absurd hp hn
  · rw [if_pos hl]; exact hp
  · rw [if_neg hl]; rfl

/-- The frame end leaves the block idle after a drop, and sending where a request was held (R32). -/
theorem frameEnd_phase (h : frameEnd s = .next t) :
    (t.phase = .idle ∧ (∃ r, t.outputs = s.outputs ++ [.drop r]) ∧ ∀ u sl p, ¬ HoldsRequest s u sl p) ∨
    (t.phase = .transmit ∧ ∃ u sl p, HoldsRequest s u sl p) := by
  rcases frameEnd_dropped_or_answered h with ⟨r, rfl, hno⟩ | ⟨u, sl, p, _, hh, ⟨_, _, _, rfl, _⟩, rfl⟩
  · exact .inl ⟨rfl, ⟨r, rfl⟩, hno⟩
  · exact .inr ⟨rfl, u, sl, p, hh⟩

end PhaseMoves

/-- Settles O54, event by event. -/
theorem phaseMovesByTheTable : Obligations.PhaseMovesByTheTable := by
  intro s t e rest _ hn h
  rw [step_of_next hn] at h
  refine ⟨?rxByte, ?tickIgnored, ?tickCounts, ?tickEnds, ?take, ?takeIgnored, ?read, ?write, ?reset⟩
  case rxByte =>
    rintro b rfl
    cases h
    exact receiveByte_phase b _
  case tickIgnored =>
    rintro rfl hp
    rw [react, tick_of_not_receive (s := { s with inputs := rest }) hp] at h
    cases h
    rfl
  case tickCounts =>
    rintro rfl hp hc
    rw [react, tick_of_receive (s := { s with inputs := rest }) hp, if_pos (by exact hc)] at h
    cases h
    exact hp
  case tickEnds =>
    rintro rfl hp hc
    rw [react, tick_of_receive (s := { s with inputs := rest }) hp, if_neg (by exact Nat.not_lt.mpr hc.ge)] at h
    exact frameEnd_phase (s := { s with inputs := rest }) h
  case take =>
    rintro rfl hp
    exact takeByte_phase (s := { s with inputs := rest }) hp h
  case takeIgnored =>
    rintro rfl hp
    rw [react, takeByte_of_not_transmit (s := { s with inputs := rest }) hp] at h
    cases h
    rfl
  case read =>
    rintro sl k a n rfl
    obtain ⟨_, rfl⟩ := hostRead_cases h
    rfl
  case write =>
    rintro sl a v rfl
    obtain ⟨_, _, rfl, _⟩ := hostWrite_cases h
    rfl
  case reset =>
    rintro rfl
    cases h
    rfl

end Sys2Proof.Machine
end

section
/-! PROOF. The invariant of 10_state.md R33: it holds after reset, and every event keeps it. -/

namespace Sys2Proof.Machine

section Invariant

variable {s t : State}

/-- The invariant in phase `IDLE` (R33). -/
theorem inv_iff_of_idle (hp : s.phase = .idle) :
    s.Inv ↔ s.cfg.wf = true ∧ Memory.wf s.cfg s.banks = true ∧
      s.rxBuf = [] ∧ s.rxOvf = false ∧ s.idleCnt = 0 ∧ s.txBuf = [] ∧ s.txPos = 0 := by
  simp only [State.Inv, IdleIsClean, ReceiveIsBounded, OverflowMeansFull, TransmitIsFramed, hp]
  grind

/-- The invariant in phase `RECEIVE` (R33). -/
theorem inv_iff_of_receive (hp : s.phase = .receive) :
    s.Inv ↔ s.cfg.wf = true ∧ Memory.wf s.cfg s.banks = true ∧
      (1 ≤ s.rxLen ∧ s.rxLen ≤ rxMax ∧ s.idleCnt < s.cfg.t35Ticks ∧ s.txBuf = [] ∧ s.txPos = 0) ∧
      (s.rxOvf = true → s.rxLen = rxMax) := by
  simp only [State.Inv, IdleIsClean, ReceiveIsBounded, OverflowMeansFull, TransmitIsFramed, hp]
  grind

/-- The invariant in phase `TRANSMIT` (R33). -/
theorem inv_iff_of_transmit (hp : s.phase = .transmit) :
    s.Inv ↔ s.cfg.wf = true ∧ Memory.wf s.cfg s.banks = true ∧
      5 ≤ s.txLen ∧ s.txLen ≤ 255 ∧ s.txPos < s.txLen ∧ s.rxBuf = [] ∧ s.rxOvf = false ∧ s.idleCnt = 0 ∧
      crcOk s.txBuf = true := by
  simp only [State.Inv, IdleIsClean, ReceiveIsBounded, OverflowMeansFull, TransmitIsFramed, hp]
  grind

/-- The invariant holds after reset under every well-formed configuration (R33, R37). -/
theorem init_inv {cfg : Config} (h : cfg.wf = true) : (State.init cfg).Inv :=
  (inv_iff_of_idle rfl).mpr ⟨h, initialBanks_wf h, rfl, rfl, rfl, rfl, rfl⟩

/-- The banks a dispatched PDU leaves have the lengths the configuration gives them. -/
theorem LineWrites.wf {m : Memory} (h : LineWrites s m) (hm : Memory.wf s.cfg s.banks = true) :
    Memory.wf s.cfg m = true := by
  rcases h with rfl | ⟨sl, addr, v, _, hin, rfl⟩
  · exact hm
  · exact modify_wf hm hin

/-- A buffer with room for a byte has not overflowed (R33). -/
theorem OverflowMeansFull.rxOvf_eq_false (h : OverflowMeansFull s) (hl : s.rxBuf.length < rxMax) : s.rxOvf = false :=
  Bool.eq_false_iff.mpr fun ho => absurd (h ho).2 (Nat.ne_of_lt hl)

/-- A received byte is stored, lost in a full buffer, or ignored (R110, R119). -/
theorem receiveByte_keeps_inv (b : Byte) (h : s.Inv) : (receiveByte b s).Inv := by
  by_cases hp : s.phase = .transmit
  · rw [receiveByte_of_transmit hp]
    exact h
  · obtain ⟨hw, hm, hidle, hrecv, hovf, _⟩ := h
    have ⟨hmax, htx⟩ : s.rxBuf.length ≤ rxMax ∧ s.txBuf = [] ∧ s.txPos = 0 := by
      cases hph : s.phase with
      | idle => obtain ⟨hr, _, _, ht⟩ := hidle hph; exact ⟨by simp [hr], ht⟩
      | receive => obtain ⟨_, hr, _, ht⟩ := hrecv hph; exact ⟨hr, ht⟩
      | transmit => exact absurd hph hp
    have ht35 : 1 ≤ s.cfg.t35Ticks := by
      simp only [Config.wf, Bool.and_eq_true, decide_eq_true_eq] at hw
      exact hw.1.2
    rw [receiveByte_of_not_transmit hp, inv_iff_of_receive rfl]
    by_cases hl : s.rxBuf.length < rxMax
    · have hno := OverflowMeansFull.rxOvf_eq_false hovf hl
      exact ⟨hw, hm, ⟨by simp [State.rxLen, hl], by simp [State.rxLen, hl], ht35, htx⟩,
        by simp [overflowAfterByte, hl, hno]⟩
    · have hfull : s.rxBuf.length = rxMax := hmax.antisymm (Nat.le_of_not_lt hl)
      exact ⟨hw, hm, ⟨by simp [State.rxLen, hfull, rxMax], by simp [State.rxLen, hfull], ht35, htx⟩,
        by simp [State.rxLen, hfull]⟩

/-- The transmitter leaves a response with a byte to send, or an idle block (R118). -/
theorem takeByte_keeps_inv (hi : s.Inv) (h : takeByte s = .next t) : t.Inv := by
  rcases takeByte_cases h with ⟨_, rfl⟩ | ⟨hp, hl, b, rfl⟩ | ⟨hp, _, b, rfl⟩
  · exact hi
  · obtain ⟨hw, hm, hmin, hmax, _, hrest⟩ := (inv_iff_of_transmit hp).mp hi
    exact (inv_iff_of_transmit (by exact hp)).mpr ⟨hw, hm, hmin, hmax, hl, hrest⟩
  · obtain ⟨hw, hm, _, _, _, hbuf, hovf, hcnt, _⟩ := (inv_iff_of_transmit hp).mp hi
    exact (inv_iff_of_idle rfl).mpr ⟨hw, hm, hbuf, hovf, hcnt, rfl, rfl⟩

/-- The frame end leaves an idle block or a response framed whole (R112, R116). -/
theorem frameEnd_keeps_inv (hp : s.phase = .receive) (hi : s.Inv) (h : frameEnd s = .next t) : t.Inv := by
  obtain ⟨hw, hm, ⟨_, _, _, hbuf, hpos⟩, _⟩ := (inv_iff_of_receive hp).mp hi
  rcases frameEnd_dropped_or_answered h with ⟨r, rfl, _⟩ | ⟨u, _, _, _, _, ⟨r, _, _, rfl, hmin, hmax, hw'⟩, rfl⟩
  · exact (inv_iff_of_idle rfl).mpr ⟨hw, hm, rfl, rfl, rfl, hbuf, hpos⟩
  · have hlen : (rtuFrame u (encodeResponse r)).length = (encodeResponse r).length + 3 := rtuFrame_length ..
    refine (inv_iff_of_transmit rfl).mpr ⟨hw, hw'.wf hm, ?_, ?_, ?_, rfl, rfl, rfl, crcOk_rtuFrame ..⟩ <;>
      simp [State.txLen, hlen] <;> omega

theorem tick_keeps_inv (hi : s.Inv) (h : tick s = .next t) : t.Inv := by
  rcases tick_cases h with ⟨_, rfl⟩ | ⟨hp, hc, rfl⟩ | ⟨hp, _, hf⟩
  · exact hi
  · obtain ⟨hw, hm, ⟨hmin, hmax, _, htx⟩, hovf⟩ := (inv_iff_of_receive hp).mp hi
    exact (inv_iff_of_receive (by exact hp)).mpr ⟨hw, hm, ⟨hmin, hmax, hc, htx⟩, hovf⟩
  · exact frameEnd_keeps_inv hp hi hf

/-- A host write changes the contents of a bank and not its length (R54, R192). -/
theorem hostWrite_keeps_inv {sl addr : Nat} {v : BankValues} (hi : s.Inv) (h : hostWrite sl addr v s = .next t) :
    t.Inv := by
  obtain ⟨reply, m, rfl, hbanks⟩ := hostWrite_cases h
  obtain ⟨hw, hm, hphases⟩ := hi
  have hm' : Memory.wf s.cfg m = true := by
    rcases hbanks with rfl | ⟨hin, rfl⟩
    · exact hm
    · exact modify_wf hm hin
  exact ⟨hw, hm', hphases⟩

/-- Every event keeps the invariant (R33). -/
theorem react_keeps_inv {e : Input} (hi : s.Inv) (h : react e s = .next t) : t.Inv := by
  cases e with
  | rxByte b => cases h; exact receiveByte_keeps_inv b hi
  | tick => exact tick_keeps_inv hi h
  | txTake => exact takeByte_keeps_inv hi h
  | hostRead sl k addr count => obtain ⟨_, rfl⟩ := hostRead_cases h; exact hi
  | hostWrite sl addr v => exact hostWrite_keeps_inv hi h
  | reset =>
    cases h
    exact (inv_iff_of_idle rfl).mpr ⟨hi.1, initialBanks_wf hi.1, rfl, rfl, rfl, rfl, rfl⟩

end Invariant

/-- Settles O49, by the invariant after reset and the check of the reference configuration. -/
theorem resetMeetsTheInvariant : Obligations.ResetMeetsTheInvariant :=
  ⟨fun _ h => init_inv h, init_inv (by decide)⟩

/-- Settles O50: every event keeps the invariant, and the schedule is no part of it. -/
theorem stepKeepsTheInvariant : Obligations.StepKeepsTheInvariant := by
  intro s t hi h
  obtain ⟨_, ⟨_, rfl⟩ | ⟨e, rest, _, hr⟩⟩ := step_cases h
  · exact hi
  · exact react_keeps_inv (s := { s with inputs := rest }) hi hr

/-- Settles O51, by induction on the run: it starts in the state after reset, and every step keeps the invariant. -/
theorem reachableStatesMeetTheInvariant : Obligations.ReachableStatesMeetTheInvariant := by
  intro cfg hw s hs
  induction hs with
  | init => exact init_inv hw
  | schedule events _ ih => exact ih
  | step _ hstep ih => exact stepKeepsTheInvariant _ _ ih hstep

end Sys2Proof.Machine
end

section
/-! PROOF. The banks as memory: the bounds check (20_memory.md R52), the access primitives (R53, R54), and that what is
written is read back, by the primitives (R55) and by requests (42_read_requests.md R150, 43_write_requests.md R173,
R174). -/

namespace Sys2Proof.Machine

/-- A bank of a well-formed configuration has at most 65536 elements (R11). -/
theorem config_len_le {cfg : Config} (hw : cfg.wf = true) (sl : Nat) (k : Kind) : cfg.len sl k ≤ 65536 := by
  simp only [Config.wf, Bool.and_eq_true, List.all_eq_true] at hw
  obtain ⟨_, hslaves⟩ := hw
  unfold Config.len
  cases hc : cfg.slaves[sl]? with
  | none => exact Nat.zero_le _
  | some c =>
    have hcw := hslaves c (List.mem_of_getElem? hc)
    simp only [SlaveConfig.wf, BankConfig.wf, Bool.and_eq_true, decide_eq_true_eq] at hcw
    cases k <;> simp [SlaveConfig.len, hcw]

/-- Settles O39: a bank ends at 65536 at the latest, and 0xFFFF + 2 is beyond. -/
theorem boundsCheckDoesNotWrap : Obligations.BoundsCheckDoesNotWrap := by
  refine fun cfg sl k => ⟨inRange_iff cfg sl k, fun hw => Bool.eq_false_iff.mpr fun h => ?_⟩
  have hend := ((inRange_iff ..).mp h).2
  have hlen := config_len_le hw sl k
  omega

section Access

variable {s : State} {sl addr n : Nat} {k : Kind} {v : BankValues}

theorem memRead_of_inBank (h : InBank s.cfg sl k addr n) :
    memRead s sl k addr n = .ok ((Memory.bank s.banks sl k).slice addr n) :=
  (memRead_cases s sl k addr n).elim And.right fun hn => absurd h hn.1

theorem memRead_of_not_inBank (h : ¬ InBank s.cfg sl k addr n) : memRead s sl k addr n = .error .illegalDataAddress :=
  (memRead_cases s sl k addr n).elim (fun hi => absurd hi.1 h) And.right

theorem memWrite_of_inBank (h : InBank s.cfg sl v.kind addr v.length) :
    memWrite s sl addr v = .ok (s.banks.modify sl fun b => b.write addr v) :=
  (memWrite_cases s sl addr v).elim And.right fun hn => absurd h hn.1

theorem memWrite_of_not_inBank (h : ¬ InBank s.cfg sl v.kind addr v.length) :
    memWrite s sl addr v = .error .illegalDataAddress :=
  (memWrite_cases s sl addr v).elim (fun hi => absurd hi.1 h) And.right

/-- Element `i` of a range that was read is the element at `addr + i` (R53). -/
theorem bank_slice_numbers_getElem? (s : State) (sl : Nat) (k : Kind) (addr : Nat) {n i : Nat} (h : i < n) :
    ((Memory.bank s.banks sl k).slice addr n).numbers[i]? = s.element sl k (addr + i) := by
  rw [numbers_slice, slice_getElem? _ _ _ _ h, State.element]

/-- The range written holds the values written (R55). -/
theorem bank_modify_slice {cfg : Config} {m : Memory} (hm : Memory.wf cfg m = true)
    (h : InBank cfg sl v.kind addr v.length) :
    (Memory.bank (m.modify sl fun b => b.write addr v) sl v.kind).slice addr v.length = v := by
  have hlt : sl < m.length := by rw [banksWf_length hm]; exact present_lt h.1
  have hend : addr + v.numbers.length ≤ (Memory.bank m sl v.kind).numbers.length := by
    rw [numbers_length, numbers_length, bank_length hm]; exact h.2
  refine numbers_ext (by simp) ?_
  rw [numbers_slice, bank_modify_numbers _ _ _ _ _ _ hlt, if_pos ⟨rfl, rfl⟩, ← numbers_length v, slice_splice hend]

end Access

/-- Settles O40: inside the bank the read gives the range's elements and the write changes exactly those; outside both
raise. -/
theorem accessPrimitives : Obligations.AccessPrimitives := by
  refine fun s sl addr hm => ⟨fun k n h => memRead_of_not_inBank h, fun k n h => ?_,
    fun v h => memWrite_of_not_inBank h, fun v h => ?_⟩
  · refine ⟨_, memRead_of_inBank h, by simp, slice_values_length ?_, fun i => bank_slice_numbers_getElem? s sl k addr⟩
    rw [bank_length hm]; exact h.2
  · exact ⟨_, memWrite_of_inBank h, modify_wf hm h, element_of_modify hm h rfl⟩

/-- Settles O41: a write that did not raise was inside its bank, where its range holds the values written. -/
theorem readAfterWrite : Obligations.ReadAfterWrite := by
  intro s sl addr v m hm h
  rcases memWrite_cases s sl addr v with ⟨hin, he⟩ | ⟨_, he⟩ <;> rw [he] at h <;> cases h
  rw [memRead_of_inBank, bank_modify_slice hm hin]
  exact hin

section Requests

variable {s t : State} {u : Byte} {sl : Nat} {addr qty : Word} {v : BankValues} {i : Instr}

/-- A request whose handler succeeds is answered with the handler's reply (R116, R133). -/
theorem exec_of_handlerOf_ok {r : Reply} (hs : Serves s u sl) (h : handlerOf i s sl = .ok r) :
    exec i s = .next (respond u r.response (emit r.obs { s with banks := r.banks })) := by
  simp [exec_eq_serve, serve, target_of_serves hs, h]

/-- A routed request that emitted an event was not refused: its handler succeeded (R203). -/
theorem handlerOf_ok_of_outputs_ne (hs : Serves s u sl) (h : exec i s = .next t) (ho : t.outputs ≠ s.outputs) :
    ∃ r, handlerOf i s sl = .ok r ∧ t.cfg = s.cfg ∧ t.banks = r.banks := by
  rcases exec_cases h with ⟨_, htgt, _⟩ | ⟨_, _, _, _, _, rfl⟩ | ⟨_, _, r, htgt, hr, rfl⟩
  · rw [target_of_serves hs] at htgt
    cases htgt
  · exact absurd rfl ho
  · rw [target_of_serves hs] at htgt
    cases htgt
    exact ⟨r, hr, rfl, rfl⟩

/-- A multiple write that was not refused had a legal quantity and a range inside its bank, and wrote that range
(R173, R174). -/
theorem batchWrite_of_outputs_ne {limit : Nat} {p : Response}
    (hi : handlerOf i s sl = batchWriteRequest limit addr v p s sl) (hs : Serves s u sl) (h : exec i s = .next t)
    (ho : t.outputs ≠ s.outputs) :
    (1 ≤ v.length ∧ v.length ≤ limit) ∧ InBank s.cfg sl v.kind addr.toNat v.length ∧ t.cfg = s.cfg ∧
      t.banks = s.banks.modify sl fun b => b.write addr.toNat v := by
  obtain ⟨r, hr, hcfg, hbanks⟩ := handlerOf_ok_of_outputs_ne hs h ho
  rw [hi] at hr
  rcases batchWriteRequest_cases limit addr v p s sl with ⟨_, he⟩ | ⟨hq, he⟩ <;> rw [he] at hr
  · cases hr
  · obtain ⟨hin, hmod, _⟩ := writeRequest_ok hr
    exact ⟨hq, hin, hcfg, hbanks.trans hmod⟩

/-- A read request of legal quantity inside its bank is answered with the values the range holds (R150). -/
theorem read_answered {fc : Byte} (hi : handlerOf i s sl = readRequest fc v.kind addr qty s sl) (hs : Serves s u sl)
    (hq : 1 ≤ qty.toNat ∧ qty.toNat ≤ readLimit v.kind) (hb : InBank s.cfg sl v.kind addr.toNat qty.toNat)
    (hv : (Memory.bank s.banks sl v.kind).slice addr.toNat qty.toNat = v) :
    exec i s = .next (State.answered
      { s with outputs := s.outputs ++ [.obs .read sl v.kind addr.toNat qty.toNat v] } u
      ([fc, BitVec.ofNat 8 (readByteCount v.kind qty.toNat)] ++ v.pack)) := by
  rcases readRequest_cases fc v.kind addr qty s sl with ⟨hn, _⟩ | ⟨_, hn, _⟩ | ⟨_, _, he⟩
  · exact absurd hq hn
  · exact absurd hb hn
  · rw [hv] at he
    exact exec_of_handlerOf_ok hs (hi.trans he)

/-- A multiple write that was not refused and a read request of the same range of the same slave, on the banks the write
left: the answer is the values written (R55). A written quantity is legal to read, as the write limit is below the read
limit (R10). -/
theorem batchWrite_reads_back {r : State} {j : Instr} {u' fc : Byte} {limit : Nat} {p : Response}
    (hi : handlerOf i s sl = batchWriteRequest limit addr v p s sl)
    (hj : handlerOf j r sl = readRequest fc v.kind addr qty r sl) (hlimit : limit ≤ readLimit v.kind)
    (hm : Memory.wf s.cfg s.banks = true) (hs : Serves s u sl) (h : exec i s = .next t) (ho : t.outputs ≠ s.outputs)
    (hcfg : r.cfg = t.cfg) (hbanks : r.banks = t.banks) (hs' : Serves r u' sl) (hqty : qty.toNat = v.length) :
    exec j r = .next (State.answered
      { r with outputs := r.outputs ++ [.obs .read sl v.kind addr.toNat v.length v] } u'
      ([fc, BitVec.ofNat 8 (readByteCount v.kind v.length)] ++ v.pack)) := by
  obtain ⟨⟨hmin, hmax⟩, hin, hcfg', hmod⟩ := batchWrite_of_outputs_ne hi hs h ho
  rw [← hqty] at hmin hmax
  have hin' : InBank r.cfg sl v.kind addr.toNat qty.toNat := by rw [hcfg, hcfg', hqty]; exact hin
  have hv : (Memory.bank r.banks sl v.kind).slice addr.toNat qty.toNat = v := by
    rw [hbanks, hmod, hqty]; exact bank_modify_slice hm hin
  rw [← hqty]
  exact read_answered hj hs' ⟨hmin, hmax.trans hlimit⟩ hin' hv

end Requests

theorem maxWrRegs_le_readLimit : maxWrRegs ≤ readLimit .hr := by decide

theorem maxWrBits_le_readLimit : maxWrBits ≤ readLimit .co := by decide

/-- Settles O42, for the registers and the coils by the same law of a multiple write and a read. -/
theorem writtenRangeReadsBack : Obligations.WrittenRangeReadsBack := by
  constructor <;> intro s t r u u' sl addr qty v hm hs h ho hcfg hbanks hs' hqty
  · exact ⟨_, batchWrite_reads_back (v := .hr v) rfl rfl maxWrRegs_le_readLimit hm hs h ho hcfg hbanks hs' hqty, rfl⟩
  · exact ⟨_, batchWrite_reads_back (v := .co v) rfl rfl maxWrBits_le_readLimit hm hs h ho hcfg hbanks hs' hqty, rfl⟩

end Sys2Proof.Machine
end

section
/-! PROOF. The codec (30_encoding.md R72 to R83, R92): the packed values by index, what each format of a PDU requires and
decodes to, every PDU that decodes, and that decoding undoes encoding for requests and responses. -/

namespace Sys2Proof

open Machine

section Values

/-- Bit `i` of the unpacked bits is bit `i` of the data (R175). -/
theorem unpackBits_getD (d : List Byte) (q i : Nat) :
    (unpackBits d q).getD i false = (decide (i < q) && bitAt d i) := by
  by_cases h : i < q <;> simp [unpackBits, bitAt, List.getD_eq_getElem?_getD, h]

/-- Bit `i` of the packed bits is the `i`-th bit, and 0 beyond the last (R79, R155). -/
theorem bitAt_packBits (v : List Bool) (i : Nat) : bitAt (packBits v) i = v.getD i false := by
  have hmod : i % 8 < 8 := Nat.mod_lt i (by decide)
  by_cases hb : i / 8 < ceil8 v.length
  · rw [bitAt, packBits_getD v _ hb, packByte_getLsbD]
    simp [List.getD_eq_getElem?_getD, hmod, Nat.div_add_mod]
  · have hi : v.length ≤ i := Nat.le_of_not_lt fun h => hb (div8_lt_ceil8 h)
    have hbyte : (packBits v).length ≤ i / 8 := by rw [packBits_length]; exact Nat.le_of_not_lt hb
    rw [bitAt, List.getD_eq_default _ _ hbyte, List.getD_eq_default _ _ hi, BitVec.getLsbD_zero]

/-- The unpacked bits read no bit at or beyond the quantity (R79). -/
theorem unpackBits_congr {d d' : List Byte} {q : Nat} (h : ∀ j, j < q → bitAt d j = bitAt d' j) :
    unpackBits d q = unpackBits d' q :=
  List.map_congr_left fun i hi => h i (List.mem_range.mp hi)

@[simp] theorem unpackBits_packBits (v : List Bool) : unpackBits (packBits v) v.length = v := by
  refine List.ext_getElem (by simp) fun i hi hv => ?_
  have := unpackBits_getD (packBits v) v.length i
  simpa [bitAt_packBits, List.getD_eq_getElem?_getD, hv] using this

/-- Word `i` of the unpacked words is the 2-byte field at place `2*i` of the data (R73, R176). -/
theorem unpackWords_getD {q i : Nat} (d : List Byte) (h : i < q) :
    (unpackWords d q).getD i 0#16 = be16 (d.getD (2 * i) 0#8) (d.getD (2 * i + 1) 0#8) := by
  simp [unpackWords, List.getD_eq_getElem?_getD, h]

@[simp] theorem unpackWords_packWords (v : List Word) : unpackWords (packWords v) v.length = v := by
  refine List.ext_getElem (by simp) fun i hi hv => ?_
  have hword := unpackWords_getD (packWords v) hv
  obtain ⟨hhi, hlo⟩ := packWords_getD v i hv
  rw [hhi, hlo, be16_hi8_lo8] at hword
  simpa [List.getD_eq_getElem?_getD, hv] using hword

theorem unpackWords_cons (x y : Byte) (d : List Byte) (q : Nat) :
    unpackWords (x :: y :: d) (q + 1) = be16 x y :: unpackWords d q := by
  simp [unpackWords, List.range_succ_eq_map, Function.comp_def, Nat.mul_succ]

/-- Data of two bytes a word are the packing of the words they hold (R156, R176). -/
theorem packWords_unpackWords {d : List Byte} {q : Nat} (h : d.length = 2 * q) : packWords (unpackWords d q) = d := by
  induction q generalizing d with
  | zero => rw [List.length_eq_zero_iff.mp h]; rfl
  | succ q ih =>
    match d, h with
    | x :: y :: d, h =>
      rw [unpackWords_cons, packWords_cons, hi8_be16, lo8_be16, ih (by simp at h; omega)]

end Values

section Fields

/-- The 2-byte field at the start of a byte sequence (R73). -/
@[simp] theorem rawField_zero (w : Word) (p : List Byte) : rawField (hi8 w :: lo8 w :: p) 0 = w.toNat := by
  have := be16_toNat (hi8 w) (lo8 w)
  rw [be16_hi8_lo8] at this
  simpa [rawField] using this.symm

@[simp] theorem rawField_cons_succ (x : Byte) (p : List Byte) (j : Nat) : rawField (x :: p) (j + 1) = rawField p j := by
  simp [rawField]

theorem twoFieldPdu_append (fc : Byte) (a b : Word) (p : List Byte) :
    twoFieldPdu fc a b ++ p = fc :: hi8 a :: lo8 a :: hi8 b :: lo8 b :: p := rfl

@[simp] theorem rawField_twoFieldPdu_one (fc : Byte) (a b : Word) : rawField (twoFieldPdu fc a b) 1 = a.toNat := by
  simp [twoFieldPdu]

@[simp] theorem rawField_twoFieldPdu_three (fc : Byte) (a b : Word) : rawField (twoFieldPdu fc a b) 3 = b.toNat := by
  simp [twoFieldPdu]

end Fields

section Formats

/-- The length check of format `RQ_C` on a whole PDU: the byte count is the one the quantity calls for, and the data are
that many bytes (R78). -/
abbrev BatchLength (byteCount : Nat → Nat) (p : List Byte) : Prop :=
  6 ≤ p.length ∧ (p.getD 5 0#8).toNat = byteCount (rawField p 3) ∧ p.length = 6 + (p.getD 5 0#8).toNat

/-- Format `RQ_C` as a byte sequence: address, quantity, the byte count it calls for and the data (R72, R78). -/
abbrev BatchPdu (byteCount : Nat → Nat) (fc : Byte) (a q : Word) (d p : List Byte) : Prop :=
  d.length = byteCount q.toNat ∧ byteCount q.toNat < 256 ∧
    p = twoFieldPdu fc a q ++ BitVec.ofNat 8 (byteCount q.toNat) :: d

/-- Formats `RQ_A` and `RQ_B`: two fields in four bytes, or `IllegalDataValue` (R72, R78). -/
theorem decodeTwoFields_cases (fc : Byte) (payload : List Byte) :
    (∃ a b, fc :: payload = twoFieldPdu fc a b ∧ decodeTwoFields payload = .ok (a, b)) ∨
    (payload.length ≠ 4 ∧ decodeTwoFields payload = .error .illegalDataValue) := by
  unfold decodeTwoFields
  split
  · next b1 b2 b3 b4 => exact .inl ⟨be16 b1 b2, be16 b3 b4, by simp [twoFieldPdu], rfl⟩
  · next hne =>
    refine .inr ⟨fun hl => ?_, rfl⟩
    obtain ⟨b1, b2, b3, b4, rfl⟩ := List.length_eq_four.mp hl
    exact hne _ _ _ _ rfl

/-- Format `RQ_C`: address, quantity and data of the length the quantity calls for, or `IllegalDataValue` (R72, R78). -/
theorem decodeBatch_cases (byteCount : Nat → Nat) (fc : Byte) (payload : List Byte) :
    (BatchLength byteCount (fc :: payload) ∧
      ∃ a q d, BatchPdu byteCount fc a q d (fc :: payload) ∧ decodeBatch byteCount payload = .ok (a, q.toNat, d)) ∨
    (¬ BatchLength byteCount (fc :: payload) ∧ decodeBatch byteCount payload = .error .illegalDataValue) := by
  unfold decodeBatch
  split
  · next b1 b2 b3 b4 bc d =>
    have hq : rawField (fc :: b1 :: b2 :: b3 :: b4 :: bc :: d) 3 = (be16 b3 b4).toNat := (be16_toNat b3 b4).symm
    split
    · next hc =>
      obtain ⟨hbc, hd⟩ := hc
      exact .inl ⟨⟨by simp, by simp [hq, hbc], by simp [hd]; omega⟩,
        be16 b1 b2, be16 b3 b4, d, ⟨hd.trans hbc, hbc ▸ bc.isLt, by simp [twoFieldPdu, ← hbc]⟩, rfl⟩
    · next hc =>
      refine .inr ⟨fun ⟨_, hbc, hlen⟩ => hc ⟨?_, ?_⟩, rfl⟩
      · simpa [hq] using hbc
      · simp at hlen; omega
  · next hne =>
    refine .inr ⟨fun ⟨hlen, _⟩ => ?_, rfl⟩
    match payload, hlen, hne with
    | b1 :: b2 :: b3 :: b4 :: bc :: d, _, hne => exact hne _ _ _ _ _ _ rfl

/-- A function code is one of the eight of R76 or unsupported (R80). -/
theorem code_cases (fc : Byte) :
    fc = 0x01#8 ∨ fc = 0x02#8 ∨ fc = 0x03#8 ∨ fc = 0x04#8 ∨ fc = 0x05#8 ∨ fc = 0x06#8 ∨ fc = 0x0F#8 ∨ fc = 0x10#8 ∨
      ¬ SupportedCode fc := by
  simp only [SupportedCode, List.mem_cons, List.not_mem_nil, or_false, ← BitVec.toNat_inj, BitVec.toNat_ofNat]
  omega

/-- An unsupported function code decodes to `IllegalFunction`, whatever follows it (R80, R81). -/
theorem decodePayload_of_unsupported {fc : Byte} (h : ¬ SupportedCode fc) (payload : List Byte) :
    decodePayload fc payload = .error .illegalFunction := by
  simp only [SupportedCode, List.mem_cons, List.not_mem_nil, or_false, not_or] at h
  unfold decodePayload
  split <;> simp_all

variable (fc : Byte) (payload : List Byte)

theorem decodeRead_cases (mk : Word → Word → Instr) :
    (∃ a b, fc :: payload = twoFieldPdu fc a b ∧ decodeRead mk payload = .ok (mk a b)) ∨
    (payload.length ≠ 4 ∧ decodeRead mk payload = .error .illegalDataValue) := by
  rcases decodeTwoFields_cases fc payload with ⟨a, b, hp, hd⟩ | ⟨hl, hd⟩
  · exact .inl ⟨a, b, hp, by simp [decodeRead, hd]⟩
  · exact .inr ⟨hl, by simp [decodeRead, hd]⟩

/-- The value field of `WRCO` stands for a bit or is illegal (R77). -/
theorem decodeWriteCoil_cases :
    (∃ a v, fc :: payload = twoFieldPdu fc a v ∧
      ((∃ b, v = coilValue b ∧ decodeWriteCoil payload = .ok (.wrco a b)) ∨
        (coilBit? v = none ∧ decodeWriteCoil payload = .error .illegalDataValue))) ∨
    (payload.length ≠ 4 ∧ decodeWriteCoil payload = .error .illegalDataValue) := by
  rcases decodeTwoFields_cases fc payload with ⟨a, v, hp, hd⟩ | ⟨hl, hd⟩
  · refine .inl ⟨a, v, hp, ?_⟩
    cases hb : coilBit? v with
    | some b => exact .inl ⟨b, coilBit_eq_some hb, by simp [decodeWriteCoil, hd, hb]⟩
    | none => exact .inr ⟨rfl, by simp [decodeWriteCoil, hd, hb]⟩
  · exact .inr ⟨hl, by simp [decodeWriteCoil, hd]⟩

theorem decodeWriteReg_cases :
    (∃ a b, fc :: payload = twoFieldPdu fc a b ∧ decodeWriteReg payload = .ok (.wrhr a b)) ∨
    (payload.length ≠ 4 ∧ decodeWriteReg payload = .error .illegalDataValue) := by
  rcases decodeTwoFields_cases fc payload with ⟨a, b, hp, hd⟩ | ⟨hl, hd⟩
  · exact .inl ⟨a, b, hp, by simp [decodeWriteReg, hd]⟩
  · exact .inr ⟨hl, by simp [decodeWriteReg, hd]⟩

theorem decodeWriteCoils_cases :
    (BatchLength ceil8 (fc :: payload) ∧ ∃ a q d, BatchPdu ceil8 fc a q d (fc :: payload) ∧
      decodeWriteCoils payload = .ok (.wrmco a (unpackBits d q.toNat))) ∨
    (¬ BatchLength ceil8 (fc :: payload) ∧ decodeWriteCoils payload = .error .illegalDataValue) := by
  rcases decodeBatch_cases ceil8 fc payload with ⟨hl, a, q, d, hp, hd⟩ | ⟨hl, hd⟩
  · exact .inl ⟨hl, a, q, d, hp, by simp [decodeWriteCoils, hd]⟩
  · exact .inr ⟨hl, by simp [decodeWriteCoils, hd]⟩

theorem decodeWriteRegs_cases :
    (BatchLength (2 * ·) (fc :: payload) ∧ ∃ a q d, BatchPdu (2 * ·) fc a q d (fc :: payload) ∧
      decodeWriteRegs payload = .ok (.wrmhr a (unpackWords d q.toNat))) ∨
    (¬ BatchLength (2 * ·) (fc :: payload) ∧ decodeWriteRegs payload = .error .illegalDataValue) := by
  rcases decodeBatch_cases (2 * ·) fc payload with ⟨hl, a, q, d, hp, hd⟩ | ⟨hl, hd⟩
  · exact .inl ⟨hl, a, q, d, hp, by simp [decodeWriteRegs, hd]⟩
  · exact .inr ⟨hl, by simp [decodeWriteRegs, hd]⟩

end Formats

section Requests

/-- The PDUs that stand for a request (R83): its encoding, and for a multiple write every PDU of format `RQ_C` whose data
hold its values. -/
def RequestPdu (p : List Byte) : Instr → Prop
  | .wrmco a bs => ∃ q d, BatchPdu ceil8 0x0F#8 a q d p ∧ bs = unpackBits d q.toNat
  | .wrmhr a vs => ∃ q d, BatchPdu (2 * ·) 0x10#8 a q d p ∧ vs = unpackWords d q.toNat
  | i => p = encode i

/-- A PDU that decodes stands for the request it decodes to. -/
theorem requestPdu_of_decode {p : List Byte} {i : Instr} (h : decode p = .ok i) : RequestPdu p i := by
  match p with
  | [] => cases h
  | fc :: payload =>
    have read : ∀ {mk : Word → Word → Instr}, decodeRead mk payload = .ok i →
        ∃ a b, fc :: payload = twoFieldPdu fc a b ∧ i = mk a b := fun {mk} h => by
      rcases decodeRead_cases fc payload mk with ⟨a, b, hp, hd⟩ | ⟨_, hd⟩ <;> rw [hd] at h <;> cases h
      exact ⟨a, b, hp, rfl⟩
    rcases code_cases fc with rfl | rfl | rfl | rfl | rfl | rfl | rfl | rfl | hfc
    case inl | inr.inl | inr.inr.inl | inr.inr.inr.inl =>
      obtain ⟨a, b, hp, rfl⟩ := read h
      exact hp
    · rcases decodeWriteCoil_cases 0x05#8 payload with ⟨a, v, hp, ⟨b, rfl, hd⟩ | ⟨_, hd⟩⟩ | ⟨_, hd⟩ <;>
        cases hd.symm.trans h
      exact hp
    · rcases decodeWriteReg_cases 0x06#8 payload with ⟨a, b, hp, hd⟩ | ⟨_, hd⟩ <;> cases hd.symm.trans h
      exact hp
    · rcases decodeWriteCoils_cases 0x0F#8 payload with ⟨_, a, q, d, hp, hd⟩ | ⟨_, hd⟩ <;> cases hd.symm.trans h
      exact ⟨q, d, hp, rfl⟩
    · rcases decodeWriteRegs_cases 0x10#8 payload with ⟨_, a, q, d, hp, hd⟩ | ⟨_, hd⟩ <;> cases hd.symm.trans h
      exact ⟨q, d, hp, rfl⟩
    · rw [decode_cons, decodePayload_of_unsupported hfc] at h
      cases h

@[simp] theorem decodeTwoFields_bytes (a b : Word) : decodeTwoFields [hi8 a, lo8 a, hi8 b, lo8 b] = .ok (a, b) := by
  simp [decodeTwoFields]

/-- Data of the length the quantity calls for are accepted (R78). -/
theorem decodeBatch_bytes {byteCount : Nat → Nat} (a : Word) {q : Word} {d : List Byte}
    (hd : d.length = byteCount q.toNat) (hbc : byteCount q.toNat < 256) :
    decodeBatch byteCount (hi8 a :: lo8 a :: hi8 q :: lo8 q :: BitVec.ofNat 8 (byteCount q.toNat) :: d) =
      .ok (a, q.toNat, d) := by
  simp [decodeBatch, hd, Nat.mod_eq_of_lt hbc]

/-- A PDU decodes to every request it stands for. -/
theorem decode_of_requestPdu {p : List Byte} {i : Instr} (h : RequestPdu p i) : decode p = .ok i := by
  cases i with
  | rdco a b | rddi a b | rdhr a b | rdir a b =>
    subst h
    simp [encode, twoFieldPdu, decode_cons, decodePayload, decodeRead]
  | wrco a b =>
    subst h
    simp [encode, twoFieldPdu, decode_cons, decodePayload, decodeWriteCoil]
  | wrhr a b =>
    subst h
    simp [encode, twoFieldPdu, decode_cons, decodePayload, decodeWriteReg]
  | wrmco a bs =>
    obtain ⟨q, d, ⟨hd, hbc, rfl⟩, rfl⟩ := h
    rw [twoFieldPdu_append, decode_cons, show decodePayload 0x0F#8 = decodeWriteCoils from rfl, decodeWriteCoils,
      decodeBatch_bytes a hd hbc]
  | wrmhr a vs =>
    obtain ⟨q, d, ⟨hd, hbc, rfl⟩, rfl⟩ := h
    rw [twoFieldPdu_append, decode_cons, show decodePayload 0x10#8 = decodeWriteRegs from rfl, decodeWriteRegs,
      decodeBatch_bytes a hd hbc]

/-- The encoding of a well-formed request stands for it (R83). -/
theorem requestPdu_encode {i : Instr} (h : i.wf = true) : RequestPdu (encode i) i := by
  cases i with
  | rdco a b | rddi a b | rdhr a b | rdir a b | wrco a b | wrhr a b => rfl
  | wrmco a bs =>
    simp only [Instr.wf, Bool.and_eq_true, decide_eq_true_eq] at h
    have hq : (BitVec.ofNat 16 bs.length).toNat = bs.length := Nat.mod_eq_of_lt (by omega)
    have hbc := ceil8_bound bs.length
    exact ⟨BitVec.ofNat 16 bs.length, packBits bs,
      ⟨by simp [hq], by rw [hq]; omega, by simp [encode, hq]⟩, by rw [hq, unpackBits_packBits]⟩
  | wrmhr a vs =>
    simp only [Instr.wf, Bool.and_eq_true, decide_eq_true_eq] at h
    have hq : (BitVec.ofNat 16 vs.length).toNat = vs.length := Nat.mod_eq_of_lt (by omega)
    exact ⟨BitVec.ofNat 16 vs.length, packWords vs,
      ⟨by simp [hq], by simp [hq]; omega, by simp [encode, hq]⟩, by rw [hq, unpackWords_packWords]⟩

/-- A PDU without padding bits is the encoding of the request it stands for (R92). -/
theorem encode_of_requestPdu {p : List Byte} {i : Instr} (h : RequestPdu p i) (hi : ∀ a bs, i ≠ .wrmco a bs) :
    encode i = p := by
  cases i with
  | rdco a b | rddi a b | rdhr a b | rdir a b | wrco a b | wrhr a b => exact h.symm
  | wrmco a bs => exact absurd rfl (hi a bs)
  | wrmhr a vs =>
    obtain ⟨q, d, ⟨hd, _, rfl⟩, rfl⟩ := h
    simp [encode, packWords_unpackWords hd]

/-- The encoding of a multiple write of coils is a PDU that stands for it, but for the padding bits (R79, R92). -/
theorem encode_wrmco_of_batchPdu {a q : Word} {d p : List Byte} (h : BatchPdu ceil8 0x0F#8 a q d p) :
    (encode (.wrmco a (unpackBits d q.toNat))).length = p.length ∧
      (encode (.wrmco a (unpackBits d q.toNat))).take 6 = p.take 6 ∧
      ∀ j, bitAt ((encode (.wrmco a (unpackBits d q.toNat))).drop 6) j =
        (decide (j < q.toNat) && bitAt (p.drop 6) j) := by
  obtain ⟨hd, _, rfl⟩ := h
  refine ⟨by simp [encode, hd], by simp [encode, twoFieldPdu], fun j => ?_⟩
  simp only [encode, twoFieldPdu_append, List.drop_succ_cons, List.drop_zero, bitAt_packBits, unpackBits_getD]

end Requests

section Responses

/-- Setting a bit that is set changes nothing (R75, R201). -/
theorem or_0x80_of_getLsbD_seven {fc : Byte} (h : fc.getLsbD 7 = true) : fc ||| 0x80#8 = fc := by
  have hmask : 0x80#8 = BitVec.twoPow 8 7 := rfl
  refine BitVec.eq_of_getLsbD_eq fun i _ => ?_
  rw [hmask, BitVec.getLsbD_or, BitVec.getLsbD_twoPow]
  by_cases hi : 7 = i
  · subst hi; simp [h]
  · simp [hi]

@[simp] theorem excOfCode_code (e : ExcCode) : excOfCode? e.code = some e := by cases e <;> rfl

theorem code_of_excOfCode {b : Byte} {e : ExcCode} (h : excOfCode? b = some e) : e.code = b := by
  apply BitVec.eq_of_toNat_eq
  unfold excOfCode? at h
  split at h <;> cases h <;> simp_all [ExcCode.code]

/-- Decoding undoes the encoding of a response (R92). -/
theorem decodeResponse_encodeResponse {r : Response} (h : r.wf = true) : decodeResponse (encodeResponse r) = some r := by
  cases r with
  | data fc bc bytes =>
    simp only [Response.wf, Bool.and_eq_true, Bool.or_eq_true, beq_iff_eq, decide_eq_true_eq] at h
    obtain ⟨((rfl | rfl) | rfl) | rfl, hlen⟩ := h <;> simp [encodeResponse, decodeResponse, hlen]
  | single fc a v =>
    simp only [Response.wf, Bool.or_eq_true, beq_iff_eq] at h
    obtain rfl | rfl := h <;> simp [encodeResponse, decodeResponse, twoFieldPdu]
  | batch fc a q =>
    simp only [Response.wf, Bool.or_eq_true, beq_iff_eq] at h
    obtain rfl | rfl := h <;> simp [encodeResponse, decodeResponse, twoFieldPdu]
  | exception fc e =>
    have hbit : fc.getLsbD 7 = true := h
    simp [encodeResponse, decodeResponse, or_0x80_of_getLsbD_seven hbit, hbit]

/-- A response PDU that decodes is the encoding of its response (R92). -/
theorem encodeResponse_of_decodeResponse {p : List Byte} {r : Response} (h : decodeResponse p = some r) :
    encodeResponse r = p := by
  unfold decodeResponse at h
  split at h
  · cases h
  · next fc rest =>
    split at h
    · next hbit =>
      split at h
      · next c =>
        obtain ⟨e, he, rfl⟩ := Option.map_eq_some_iff.mp h
        simp [encodeResponse, or_0x80_of_getLsbD_seven hbit, code_of_excOfCode he]
      · cases h
    · split at h
      case h_9 => cases h
      case h_1 | h_2 | h_3 | h_4 =>
        split at h <;> cases h
        rfl
      all_goals
        cases h
        simp [encodeResponse, twoFieldPdu]

end Responses

/-- Settles O1: a PDU decodes to exactly the requests it stands for, and a response PDU is read by its layout. -/
theorem codecRoundTrip : Obligations.CodecRoundTrip := by
  refine ⟨fun i hi => decode_of_requestPdu (requestPdu_encode hi),
    fun p i h hi => encode_of_requestPdu (requestPdu_of_decode h) hi, fun p a bs h => ?_,
    fun r hr => decodeResponse_encodeResponse hr, fun p r h => encodeResponse_of_decodeResponse h⟩
  obtain ⟨q, d, hp, rfl⟩ := requestPdu_of_decode h
  simpa using encode_wrmco_of_batchPdu hp

end Sys2Proof
end

section
/-! PROOF. What each format's fields and lengths are (30_encoding.md R73, R77 to R79), which exception a PDU that does not
decode names (R78, R80), and how the end of an accepted frame answers it (R81, R116, R201). -/

namespace Sys2Proof

open Machine

section Formats

/-- What a PDU of format `RQ_C` holds, by index: address, quantity and byte count, and behind them the data (R72). -/
theorem BatchPdu.fields {byteCount : Nat → Nat} {fc : Byte} {a q : Word} {d p : List Byte}
    (h : BatchPdu byteCount fc a q d p) :
    rawField p 1 = a.toNat ∧ rawField p 3 = q.toNat ∧ (p.getD 5 0#8).toNat = byteCount q.toNat ∧
      ∀ j, p.getD (6 + j) 0#8 = d.getD j 0#8 := by
  obtain ⟨_, hbc, rfl⟩ := h
  refine ⟨by simp [twoFieldPdu_append], by simp [twoFieldPdu_append], ?_, fun j => ?_⟩
  · simp [twoFieldPdu_append, Nat.mod_eq_of_lt hbc]
  · rw [Nat.add_comm]
    simp [twoFieldPdu_append]

theorem decodeTwoFields_of_length {payload : List Byte} (h : payload.length = 4) :
    ∃ a b, decodeTwoFields payload = .ok (a, b) := by
  rcases decodeTwoFields_cases 0#8 payload with ⟨a, b, _, hd⟩ | ⟨hne, _⟩
  · exact ⟨a, b, hd⟩
  · exact absurd h hne

theorem decodeTwoFields_of_length_ne {payload : List Byte} (h : payload.length ≠ 4) :
    decodeTwoFields payload = .error .illegalDataValue := by
  rcases decodeTwoFields_cases 0#8 payload with ⟨a, b, hp, _⟩ | ⟨_, hd⟩
  · exact absurd (Nat.succ.inj (congrArg List.length hp)) h
  · exact hd

/-- The format of a read and of a single write is four bytes after the function code (R72, R78). -/
theorem decode_of_length_ne {fc : Byte} {payload : List Byte}
    (hfc : fc.toNat ∈ [0x01, 0x02, 0x03, 0x04, 0x05, 0x06]) (h : payload.length ≠ 4) :
    decode (fc :: payload) = .error .illegalDataValue := by
  have hd := decodeTwoFields_of_length_ne h
  simp only [List.mem_cons, List.not_mem_nil, or_false] at hfc
  rcases hfc with h | h | h | h | h | h <;>
    simp [decode_cons, decodePayload, h, decodeRead, decodeWriteCoil, decodeWriteReg, hd]

/-- Four bytes of any value decode, but for the value field of `WRCO` (R77, R83). -/
theorem decode_of_length {fc : Byte} {payload : List Byte}
    (hfc : fc.toNat ∈ [0x01, 0x02, 0x03, 0x04, 0x06]) (h : payload.length = 4) :
    ∃ i, decode (fc :: payload) = .ok i := by
  obtain ⟨a, b, hd⟩ := decodeTwoFields_of_length h
  simp only [List.mem_cons, List.not_mem_nil, or_false] at hfc
  rcases hfc with h | h | h | h | h <;> simp [decode_cons, decodePayload, h, decodeRead, decodeWriteReg, hd]

theorem eq_cons_of_getD_zero {p : List Byte} {fc : Byte} (hfc : fc ≠ 0#8) (h : p.getD 0 0#8 = fc) :
    ∃ payload, p = fc :: payload := by
  cases p with
  | nil => exact absurd h.symm hfc
  | cons x payload => exact ⟨payload, by simpa using h⟩

/-- A PDU with a function code decodes, or names the exception of its lengths and values or of its code (R77 to R80). -/
theorem decode_cases (fc : Byte) (payload : List Byte) :
    (∃ i, decode (fc :: payload) = .ok i) ∨
    (SupportedCode fc ∧ decode (fc :: payload) = .error .illegalDataValue) ∨
    (¬ SupportedCode fc ∧ decode (fc :: payload) = .error .illegalFunction) := by
  rcases code_cases fc with rfl | rfl | rfl | rfl | rfl | rfl | rfl | rfl | hfc
  case inl | inr.inl | inr.inr.inl | inr.inr.inr.inl =>
    rcases decodeRead_cases 0#8 payload _ with ⟨a, b, _, hd⟩ | ⟨_, hd⟩
    · exact .inl ⟨_, hd⟩
    · exact .inr (.inl ⟨by decide, hd⟩)
  · rcases decodeWriteCoil_cases 0x05#8 payload with ⟨a, v, _, ⟨b, _, hd⟩ | ⟨_, hd⟩⟩ | ⟨_, hd⟩
    · exact .inl ⟨_, hd⟩
    · exact .inr (.inl ⟨by decide, hd⟩)
    · exact .inr (.inl ⟨by decide, hd⟩)
  · rcases decodeWriteReg_cases 0x06#8 payload with ⟨a, b, _, hd⟩ | ⟨_, hd⟩
    · exact .inl ⟨_, hd⟩
    · exact .inr (.inl ⟨by decide, hd⟩)
  · rcases decodeWriteCoils_cases 0x0F#8 payload with ⟨_, a, q, d, _, hd⟩ | ⟨_, hd⟩
    · exact .inl ⟨_, hd⟩
    · exact .inr (.inl ⟨by decide, hd⟩)
  · rcases decodeWriteRegs_cases 0x10#8 payload with ⟨_, a, q, d, _, hd⟩ | ⟨_, hd⟩
    · exact .inl ⟨_, hd⟩
    · exact .inr (.inl ⟨by decide, hd⟩)
  · exact .inr (.inr ⟨hfc, decodePayload_of_unsupported hfc payload⟩)

theorem decode_illegalFunction_iff (fc : Byte) (payload : List Byte) :
    decode (fc :: payload) = .error .illegalFunction ↔ ¬ SupportedCode fc := by
  refine ⟨fun h hfc => ?_, fun hfc => decodePayload_of_unsupported hfc payload⟩
  rcases decode_cases fc payload with ⟨i, hd⟩ | ⟨_, hd⟩ | ⟨hn, _⟩
  · cases hd.symm.trans h
  · cases hd.symm.trans h
  · exact hn hfc

end Formats

section Answers

variable {s t : State} {later : List Input} {u fc : Byte} {sl : Nat} {p : List Byte}

/-- The end of an accepted frame dispatches its PDU (R111, R112, R116). -/
theorem step_of_holds (hf : FrameEndsNext s later) (hh : HoldsRequest s u sl p) :
    step s = consumeAfter (dispatchPdu u p { s with inputs := later }) := by
  obtain ⟨hn, hp, hc⟩ := hf
  rw [step_of_next hn, react, tick_of_receive (by exact hp), if_neg (by exact Nat.not_lt.mpr hc)]
  exact frameEnd_of_holds (s := { s with inputs := later }) hh

/-- An accepted frame whose PDU does not decode is answered with the exception the decoder names (R133, R203). -/
theorem step_of_decode_error {rest : List Byte} {e : ExcCode} (hf : FrameEndsNext s later)
    (hh : HoldsRequest s u sl (fc :: rest)) (h : decode (fc :: rest) = .error e) :
    step s = .next (consumeFrame ({ s with inputs := later }.answered u [fc ||| 0x80#8, e.code])) := by
  rw [step_of_holds hf hh, dispatchPdu, h]
  rfl

/-- A code with bit 7 set is none of the eight (R76, R80). -/
theorem not_supportedCode_of_getLsbD_seven (h : fc.getLsbD 7 = true) : ¬ SupportedCode fc := by
  have hge : 2 ^ 7 ≤ fc.toNat := Nat.ge_two_pow_of_testBit h
  simp only [SupportedCode, List.mem_cons, List.not_mem_nil, or_false]
  omega

theorem supportedCode_fc (i : Instr) : SupportedCode i.fc := by cases i <;> simp [Instr.fc]

/-- The response of a handler that succeeds begins with the request's function code (R74, R76). -/
theorem handlerOf_response_head {i : Instr} {r : Reply} (h : handlerOf i s sl = .ok r) :
    (encodeResponse r.response).head? = some i.fc := by
  cases i with
  | rdco a q | rddi a q | rdhr a q | rdir a q => rw [(readRequest_ok h).2.2]; rfl
  | wrco a b | wrhr a v => rw [(writeRequest_ok h).2.2]; rfl
  | wrmco a bs | wrmhr a vs => rw [(writeRequest_ok (batchWriteRequest_ok h)).2.2]; rfl

theorem rtuFrame_inj {p p' : List Byte} (h : rtuFrame u p = rtuFrame u p') : p = p' := by
  rw [← framePdu_rtuFrame u p, h, framePdu_rtuFrame]

/-- A request that decodes is never answered with 01 (R202, R204). -/
theorem exec_txBuf_ne {i : Instr} (hs : Serves s u sl) (h : exec i s = .next t) (x : Byte) :
    t.txBuf ≠ rtuFrame u [x ||| 0x80#8, 1#8] := by
  intro hbuf
  rcases exec_cases h with ⟨_, htgt, _⟩ | ⟨_, _, e, htgt, he, rfl⟩ | ⟨_, _, r, htgt, hr, rfl⟩ <;>
    rw [target_of_serves hs] at htgt <;> cases htgt
  · have hpdu := rtuFrame_inj hbuf
    rcases handlerOf_error he with rfl | rfl <;> simp [encodeResponse, ExcCode.code] at hpdu
  · have hhead := handlerOf_response_head hr
    rw [rtuFrame_inj hbuf] at hhead
    refine not_supportedCode_of_getLsbD_seven ?_ (supportedCode_fc i)
    rw [← Option.some.inj hhead]
    simp

end Answers

/-- Settles O2: outside the eight codes the decoder names 01; the answers of the eight name 02 or 03, or have bit 7
clear. -/
theorem unsupportedFunctionAnsweredWith01 : Obligations.UnsupportedFunctionAnsweredWith01 := by
  refine ⟨decode_illegalFunction_iff, fun s later u fc sl rest hf hh => ⟨fun hfc => ?_, fun hfc => ?_⟩,
    fun fc hbit => ⟨not_supportedCode_of_getLsbD_seven hbit, or_0x80_of_getLsbD_seven hbit⟩⟩
  · exact step_of_decode_error hf hh ((decode_illegalFunction_iff fc rest).mpr hfc)
  · rcases decode_cases fc rest with ⟨i, hd⟩ | ⟨_, hd⟩ | ⟨hn, _⟩
    · obtain ⟨t, ht⟩ := exec_next i { s with inputs := later }
      have hstep : step s = .next (consumeFrame t) := by
        rw [step_of_holds hf hh, dispatchPdu, hd]
        exact congrArg consumeAfter ht
      exact ⟨_, hstep, exec_txBuf_ne (s := { s with inputs := later }) hh.serves ht fc⟩
    · refine ⟨_, step_of_decode_error hf hh hd, fun hbuf => ?_⟩
      have hpdu := rtuFrame_inj hbuf
      simp [ExcCode.code] at hpdu
    · exact absurd hfc hn

/-- Settles O3, by the length each format asks for and the answer to a PDU that does not decode. -/
theorem wrongPduLengthIsIllegalValue : Obligations.WrongPduLengthIsIllegalValue := by
  refine ⟨fun fc payload => decode_of_length_ne, fun fc payload => decode_of_length, fun p hp => ?_, fun p hp => ?_,
    fun s later u fc sl rest hf hh => step_of_decode_error hf hh⟩
  · obtain ⟨payload, rfl⟩ := eq_cons_of_getD_zero (by decide) hp
    rcases decodeWriteCoils_cases 0x0F#8 payload with ⟨hl, _, _, _, _, hd⟩ | ⟨hl, hd⟩
    · exact ⟨fun _ => ⟨_, hd⟩, fun hn => absurd hl hn⟩
    · exact ⟨fun h => absurd h hl, fun _ => hd⟩
  · obtain ⟨payload, rfl⟩ := eq_cons_of_getD_zero (by decide) hp
    rcases decodeWriteRegs_cases 0x10#8 payload with ⟨hl, _, _, _, _, hd⟩ | ⟨hl, hd⟩
    · exact ⟨fun _ => ⟨_, hd⟩, fun hn => absurd hl hn⟩
    · exact ⟨fun h => absurd h hl, fun _ => hd⟩

/-- Settles O5: the data are read below the quantity only, and beyond the last bit packing puts 0. -/
theorem paddingBitsCarryNoValue : Obligations.PaddingBitsCarryNoValue := by
  refine ⟨fun a1 a2 q1 q2 bc d d' hlen hbits => ?_, fun v j hj => ?_⟩
  · rw [← be16_toNat] at hbits
    by_cases hc : bc.toNat = ceil8 (be16 q1 q2).toNat ∧ d.length = bc.toNat <;>
      simp [decode_cons, decodePayload, decodeWriteCoils, decodeBatch, ← hlen, hc, unpackBits_congr hbits]
  · rw [bitAt_packBits, List.getD_eq_default _ _ hj]

/-- Settles O6: the fields of each format by index, from what a PDU that decodes stands for. -/
theorem fieldsAreHighByteFirst : Obligations.FieldsAreHighByteFirst := by
  refine ⟨fun b1 b2 b3 b4 => ⟨be16 b1 b2, be16 b3 b4, be16_toNat b1 b2, be16_toNat b3 b4, rfl, rfl, rfl, rfl, rfl,
    fun c hc => ?_⟩, fun p a vs h => ?_, fun p a bs h => ?_⟩
  · change decodeWriteCoil [b1, b2, b3, b4] = .ok c at hc
    cases hb : coilBit? (be16 b3 b4) with
    | some b =>
      simp only [decodeWriteCoil, decodeTwoFields, hb, Except.ok.injEq] at hc
      exact ⟨b, hc.symm, (coilBit_eq_some hb).symm⟩
    | none => simp [decodeWriteCoil, decodeTwoFields, hb] at hc
  · obtain ⟨q, d, hp, rfl⟩ := requestPdu_of_decode h
    obtain ⟨haddr, hqty, hbc, hdata⟩ := hp.fields
    rw [unpackWords_length]
    refine ⟨haddr.symm, hqty.symm, hbc, fun i hi => ?_⟩
    rw [unpackWords_getD d hi, be16_toNat, rawField, Nat.add_assoc, hdata, hdata]
  · obtain ⟨q, d, hp, rfl⟩ := requestPdu_of_decode h
    obtain ⟨haddr, hqty, hbc, hdata⟩ := hp.fields
    rw [unpackBits_length]
    refine ⟨haddr.symm, hqty.symm, hbc, fun i hi => ?_⟩
    rw [unpackBits_getD, hdata, bitAt, decide_eq_true hi, Bool.true_and]

/-- Settles O4, by the two legal values of the field. -/
theorem coilValueHasTwoEncodings : Obligations.CoilValueHasTwoEncodings := by
  refine ⟨fun a1 a2 v1 v2 => ?_, fun _ _ _ _ => rfl⟩
  change decodeWriteCoil [a1, a2, v1, v2] = _
  rw [decodeWriteCoil, decodeTwoFields]
  by_cases h1 : be16 v1 v2 = 0xFF00#16
  · simp [coilBit?, h1]
  · by_cases h0 : be16 v1 v2 = 0x0000#16 <;> simp [coilBit?, h1, h0]

/-- Settles O9, by running the decoder on the eight PDUs. -/
theorem writtenOutPdusDecode : Obligations.WrittenOutPdusDecode := by
  unfold Obligations.WrittenOutPdusDecode
  decide

end Sys2Proof
end

section
/-! PROOF. That decoding a PDU and running its request is `Dispatch` on the raw bytes (41_request_decoder.md R133, R135),
what the end of an accepted frame leaves (40_frame_codec.md R116), and a whole request line (30_encoding.md R90). -/

namespace Sys2Proof.Machine

/-- A handler's reply as `Dispatch` returns it (R133). -/
def Reply.raw (r : Reply) : RawReply := (encodeResponse r.response, r.banks, [r.obs])

/-- The block with what `Dispatch` returned: the banks and events taken over, the response framed for the unit and
loaded (R116). -/
def State.replied (s : State) (u : Byte) (r : RawReply) : State :=
  { s with banks := r.2.1, outputs := s.outputs ++ r.2.2, txBuf := rtuFrame u r.1, txPos := 0, phase := .transmit }

section Handlers

variable (s : State) (sl : Nat) (fc : Byte) (a q : Word)

/-- The range check of the pseudocode, in the negative, is that of the bank (R52). -/
theorem inBank_iff_not_raw (cfg : Config) (k : Kind) (addr n : Nat) :
    InBank cfg sl k addr n ↔ ¬ (cfg.present sl k = false ∨ addr + n > cfg.len sl k) := by
  simp [InBank]

/-- `ReadBits` and `ReadWords` on a PDU of two fields are the read handler (R150). -/
theorem rawRead_twoFields (k : Kind) :
    rawRead (readLimit k) (readByteCount k) k s sl (twoFieldPdu fc a q) =
      (readRequest fc k a q s sl).map Reply.raw := by
  rw [rawRead, rawField_twoFieldPdu_one, rawField_twoFieldPdu_three, if_neg (by simp)]
  rcases readRequest_cases fc k a q s sl with ⟨hn, e⟩ | ⟨hn, hb, e⟩ | ⟨hn, hb, e⟩ <;> rw [e]
  · rw [if_pos (by omega)]; rfl
  · rw [inBank_iff_not_raw, not_not] at hb
    rw [if_neg (by omega), if_pos hb]; rfl
  · rw [inBank_iff_not_raw] at hb
    rw [if_neg (by omega), if_neg hb]; rfl

/-- The end of the write handlers is the shared write (R170). -/
theorem rawWrite_eq (v : BankValues) (r : Response) :
    rawWrite s sl a.toNat v (encodeResponse r) = (writeRequest a v r s sl).map Reply.raw := by
  rw [rawWrite]
  rcases writeRequest_cases a v r s sl with ⟨hb, e⟩ | ⟨hb, e⟩ <;> rw [e, inBank_iff_not_raw] at *
  · rw [if_pos (not_not.mp hb)]; rfl
  · rw [if_neg hb]; rfl

theorem rawWriteReg_twoFields (w : Word) :
    rawWriteReg s sl (twoFieldPdu fc a w) = (writeRequest a (.hr [w]) (.single fc a w) s sl).map Reply.raw := by
  rw [rawWriteReg, rawField_twoFieldPdu_one, rawField_twoFieldPdu_three, if_neg (by simp), BitVec.ofNat_toNat,
    BitVec.setWidth_eq]
  exact rawWrite_eq s sl a (.hr [w]) (.single fc a w)

/-- `WriteCoil` on a legal value field is the write of one coil (R77, R171). -/
theorem rawWriteCoil_twoFields (b : Bool) :
    rawWriteCoil s sl (twoFieldPdu fc a (coilValue b)) =
      (writeRequest a (.co [b]) (.single fc a (coilValue b)) s sl).map Reply.raw := by
  rw [rawWriteCoil, rawField_twoFieldPdu_one, rawField_twoFieldPdu_three, if_neg (by simp)]
  cases b <;> rw [if_neg (by decide)] <;> exact rawWrite_eq s sl a (.co [_]) (.single fc a (coilValue _))

/-- `WriteCoil` refuses every other value field (R77, R171). -/
theorem rawWriteCoil_of_illegal {v : Word} (h : coilBit? v = none) :
    rawWriteCoil s sl (twoFieldPdu fc a v) = .error .illegalDataValue := by
  have hv : v.toNat ≠ 0xFF00 ∧ v.toNat ≠ 0x0000 := by
    unfold coilBit? at h
    constructor <;> intro hv <;> simp [← BitVec.toNat_inj, hv] at h
  rw [rawWriteCoil, rawField_twoFieldPdu_three, if_neg (by simp), if_pos hv]

variable {byteCount : Nat → Nat} {values : List Byte → Nat → BankValues} {p : List Byte}

/-- The multiple writes on a PDU of the length its quantity calls for are their handler (R173, R174). -/
theorem rawWriteBatch_of_batchPdu {limit : Nat} {a q : Word} {d : List Byte} (h : BatchPdu byteCount fc a q d p)
    (hv : (values d q.toNat).length = q.toNat) :
    rawWriteBatch limit byteCount values s sl p =
      (batchWriteRequest limit a (values d q.toNat)
        (.batch fc a (BitVec.ofNat 16 (values d q.toNat).length)) s sl).map Reply.raw := by
  obtain ⟨haddr, hqty, hbc, _⟩ := h.fields
  have hlen : p.length = 6 + byteCount q.toNat := by
    obtain ⟨hd, _, rfl⟩ := h; simp [hd]; omega
  have hdata : p.drop 6 = d ∧ p.take 5 = twoFieldPdu fc a q := by
    obtain ⟨_, _, rfl⟩ := h; simp [twoFieldPdu]
  rw [rawWriteBatch, haddr, hqty, hbc, hlen, hdata.1, hdata.2, if_neg (by omega)]
  rcases batchWriteRequest_cases limit a (values d q.toNat) (.batch fc a (BitVec.ofNat 16 (values d q.toNat).length)) s sl
    with ⟨hn, e⟩ | ⟨hn, e⟩ <;> rw [e] <;> rw [hv] at *
  · rw [if_pos (by omega)]; rfl
  · rw [if_neg (by omega), if_neg (by simp), if_neg (by simp), BitVec.ofNat_toNat, BitVec.setWidth_eq]
    exact rawWrite_eq s sl a (values d q.toNat) (.batch fc a q)

theorem rawWriteBatch_of_not_length (limit : Nat) (h : ¬ BatchLength byteCount p) :
    rawWriteBatch limit byteCount values s sl p = .error .illegalDataValue := by
  unfold rawWriteBatch
  split
  · rfl
  · next hmin =>
    split
    · rfl
    · split
      · rfl
      · next hbc =>
        rw [if_pos fun hlen => h ⟨Nat.le_of_not_lt hmin, not_not.mp hbc, hlen⟩]

end Handlers

section Dispatch

variable (s : State) (sl : Nat) {u : Byte} {p : List Byte}

/-- A PDU begins with the function code of the request it decodes to (R76). -/
theorem head_of_decode_ok {i : Instr} (h : decode p = .ok i) : p.getD 0 0#8 = i.fc := by
  have hp := requestPdu_of_decode h
  cases i with
  | rdco a q | rddi a q | rdhr a q | rdir a q | wrco a b | wrhr a w => cases hp; rfl
  | wrmco a bs | wrmhr a vs => obtain ⟨q, d, ⟨_, _, rfl⟩, _⟩ := hp; rfl

theorem rawHandler_of_wrmco (h : p.getD 0 0#8 = 0x0F#8) :
    rawHandler s sl p = rawWriteBatch maxWrBits ceil8 (fun d q => .co (unpackBits d q)) s sl p := by
  rw [rawHandler, h]; rfl

theorem rawHandler_of_wrmhr (h : p.getD 0 0#8 = 0x10#8) :
    rawHandler s sl p = rawWriteBatch maxWrRegs (2 * ·) (fun d q => .hr (unpackWords d q)) s sl p := by
  rw [rawHandler, h]; rfl

/-- The raw handler on a PDU that decodes is the handler of its request (R133). -/
theorem rawHandler_of_decode_ok {i : Instr} (h : decode p = .ok i) :
    rawHandler s sl p = (handlerOf i s sl).map Reply.raw := by
  have hp := requestPdu_of_decode h
  cases i with
  | rdco a q => cases hp; exact rawRead_twoFields s sl 0x01#8 a q .co
  | rddi a q => cases hp; exact rawRead_twoFields s sl 0x02#8 a q .di
  | rdhr a q => cases hp; exact rawRead_twoFields s sl 0x03#8 a q .hr
  | rdir a q => cases hp; exact rawRead_twoFields s sl 0x04#8 a q .ir
  | wrco a b => cases hp; exact rawWriteCoil_twoFields s sl 0x05#8 a b
  | wrhr a w => cases hp; exact rawWriteReg_twoFields s sl 0x06#8 a w
  | wrmco a bs =>
    obtain ⟨q, d, hp, rfl⟩ := hp
    rw [rawHandler_of_wrmco s sl (head_of_decode_ok h)]
    exact rawWriteBatch_of_batchPdu s sl 0x0F#8 hp (unpackBits_length ..)
  | wrmhr a vs =>
    obtain ⟨q, d, hp, rfl⟩ := hp
    rw [rawHandler_of_wrmhr s sl (head_of_decode_ok h)]
    exact rawWriteBatch_of_batchPdu s sl 0x10#8 hp (unpackWords_length ..)

theorem rawRead_of_length_ne {limit : Nat} {byteCount : Nat → Nat} (k : Kind) (h : p.length ≠ 5) :
    rawRead limit byteCount k s sl p = .error .illegalDataValue := if_pos h

theorem rawWriteCoil_of_length_ne (h : p.length ≠ 5) : rawWriteCoil s sl p = .error .illegalDataValue := if_pos h

theorem rawWriteReg_of_length_ne (h : p.length ≠ 5) : rawWriteReg s sl p = .error .illegalDataValue := if_pos h

theorem rawHandler_of_unsupported {fc : Byte} (h : ¬ SupportedCode fc) (payload : List Byte) :
    rawHandler s sl (fc :: payload) = .error .illegalFunction := by
  simp only [SupportedCode, List.mem_cons, List.not_mem_nil, or_false, not_or] at h
  unfold rawHandler
  split <;> simp_all

/-- The raw handler raises what the decoder names (R135). -/
theorem rawHandler_of_decode_error {e : ExcCode} (hp : p ≠ []) (h : decode p = .error e) :
    rawHandler s sl p = .error e := by
  obtain ⟨fc, payload, rfl⟩ := List.exists_cons_of_ne_nil hp
  have hlen : payload.length ≠ 4 → (fc :: payload).length ≠ 5 := by simp
  rcases code_cases fc with rfl | rfl | rfl | rfl | rfl | rfl | rfl | rfl | hfc
  case inl | inr.inl | inr.inr.inl | inr.inr.inr.inl =>
    rcases decodeRead_cases 0#8 payload _ with ⟨a, b, _, hd⟩ | ⟨hl, hd⟩ <;> cases hd.symm.trans h
    exact rawRead_of_length_ne s sl _ (hlen hl)
  · rcases decodeWriteCoil_cases 0x05#8 payload with ⟨a, v, hv, ⟨b, _, hd⟩ | ⟨hb, hd⟩⟩ | ⟨hl, hd⟩ <;>
      cases hd.symm.trans h
    · rw [hv]; exact rawWriteCoil_of_illegal s sl 0x05#8 a hb
    · exact rawWriteCoil_of_length_ne s sl (hlen hl)
  · rcases decodeWriteReg_cases 0x06#8 payload with ⟨a, b, _, hd⟩ | ⟨hl, hd⟩ <;> cases hd.symm.trans h
    exact rawWriteReg_of_length_ne s sl (hlen hl)
  · rcases decodeWriteCoils_cases 0x0F#8 payload with ⟨_, a, q, d, _, hd⟩ | ⟨hl, hd⟩ <;> cases hd.symm.trans h
    exact (rawHandler_of_wrmco s sl rfl).trans (rawWriteBatch_of_not_length s sl _ hl)
  · rcases decodeWriteRegs_cases 0x10#8 payload with ⟨_, a, q, d, _, hd⟩ | ⟨hl, hd⟩ <;> cases hd.symm.trans h
    exact (rawHandler_of_wrmhr s sl rfl).trans (rawWriteBatch_of_not_length s sl _ hl)
  · cases (decodePayload_of_unsupported hfc payload).symm.trans h
    exact rawHandler_of_unsupported s sl hfc payload

variable {s sl}

theorem exec_of_handlerOf_error {i : Instr} {e : ExcCode} (hs : Serves s u sl) (h : handlerOf i s sl = .error e) :
    exec i s = .next (takeException u i.fc e s) := by
  simp [exec_eq_serve, serve, target_of_serves hs, h]

theorem takeException_eq_replied (u fc : Byte) (e : ExcCode) (s : State) :
    takeException u fc e s = s.replied u ([fc ||| 0x80#8, e.code], s.banks, []) := by
  simp [takeException, respond, State.replied, encodeResponse]

/-- Decoding a PDU and running its request is the spec's `Dispatch` on the raw bytes (R133). -/
theorem dispatchPdu_eq_rawDispatch (hs : Serves s u sl) (hp : p ≠ []) :
    dispatchPdu u p s = .next (s.replied u (rawDispatch s sl p)) := by
  rcases dispatchPdu_cases u p s with ⟨i, hd, h⟩ | ⟨e, hd, h⟩ <;> rw [h, rawDispatch]
  · rw [rawHandler_of_decode_ok s sl hd, head_of_decode_ok hd]
    cases hr : handlerOf i s sl with
    | ok r => exact exec_of_handlerOf_ok hs hr
    | error e =>
      rw [exec_of_handlerOf_error hs hr, takeException_eq_replied]
      rfl
  · rw [rawHandler_of_decode_error s sl hp hd, takeException_eq_replied]
    cases p <;> rfl

/-- `Dispatch` reads the configuration and the banks only (R133). -/
theorem rawDispatch_congr {t : State} (hcfg : t.cfg = s.cfg) (hbanks : t.banks = s.banks) :
    rawDispatch t sl p = rawDispatch s sl p := by
  simp only [rawDispatch, rawHandler, rawRead, rawWriteCoil, rawWriteReg, rawWriteBatch, rawWrite, hcfg, hbanks]

end Dispatch

section Runs

variable {s t : State} {rest : List Input}

/-- A run of `m + n` steps is one of `m` steps and then one of `n`. -/
theorem runSteps_add {m : Nat} (h : runSteps m s = .next t) (n : Nat) : runSteps (m + n) s = runSteps n t := by
  induction m generalizing s with
  | zero => cases h; rw [Nat.zero_add]
  | succ m ih =>
    rw [Nat.succ_add, runSteps]
    rw [runSteps] at h
    cases hs : step s with
    | next s' => rw [hs] at h; exact ih h
    | fault r | refused r => rw [hs] at h; cases h

theorem runSteps_succ {s' : State} (h : step s = .next s') (n : Nat) : runSteps (n + 1) s = runSteps n s' := by
  rw [runSteps, h]

theorem runSteps_one (s : State) : runSteps 1 s = step s := by
  rw [runSteps]
  cases step s <;> rfl

/-- A byte that finds room in the receive buffer is stored (R110). -/
theorem step_rxByte_of_room {b : Byte} (hn : NextEvent s (.rxByte b) rest) (hp : s.phase ≠ .transmit)
    (hroom : s.rxBuf.length < rxMax) :
    step s = .next { s with inputs := rest, rxBuf := s.rxBuf ++ [b], idleCnt := 0, phase := .receive } := by
  rw [step_of_next hn, react, receiveByte_of_not_transmit (by exact hp)]
  simp [overflowAfterByte, hroom]

/-- A tick that leaves the silence incomplete is counted (R111). -/
theorem step_tick_of_lt (hn : NextEvent s .tick rest) (hp : s.phase = .receive) (hc : s.idleCnt + 1 < s.cfg.t35Ticks) :
    step s = .next { s with inputs := rest, idleCnt := s.idleCnt + 1 } := by
  rw [step_of_next hn, react, tick_of_receive (by exact hp), if_pos (by exact hc)]

/-- The bytes of the line are stored in order while the buffer has room (R105, R110). -/
theorem runSteps_bytes {f : List Byte} (hw : s.cfg.wf = true) (hp : s.phase ≠ .transmit) (hf : f ≠ [])
    (hroom : s.rxBuf.length + f.length ≤ rxMax) (hi : s.inputs = f.map Input.rxByte ++ rest) :
    runSteps f.length s =
      .next { s with inputs := rest, rxBuf := s.rxBuf ++ f, idleCnt := 0, phase := .receive } := by
  induction f generalizing s with
  | nil => exact absurd rfl hf
  | cons b f ih =>
    rw [List.length_cons] at hroom ⊢
    rw [runSteps_succ (step_rxByte_of_room ⟨hw, hi⟩ hp (by omega))]
    cases f with
    | nil => rfl
    | cons c f =>
      rw [ih (by exact hw) Phase.noConfusion (List.cons_ne_nil c f) (by simp at hroom ⊢; omega) rfl]
      simp

/-- Ticks that leave the silence incomplete are counted (R111). -/
theorem runSteps_ticks {n : Nat} (hw : s.cfg.wf = true) (hp : s.phase = .receive) (hc : s.idleCnt + n < s.cfg.t35Ticks)
    (hi : s.inputs = List.replicate n Input.tick ++ rest) :
    runSteps n s = .next { s with inputs := rest, idleCnt := s.idleCnt + n } := by
  induction n generalizing s with
  | zero => rw [runSteps, ← show s.inputs = rest from hi]; rfl
  | succ n ih =>
    rw [runSteps_succ (step_tick_of_lt ⟨hw, hi⟩ hp (by omega)), ih (by exact hw) (by exact hp) (by simp; omega) rfl]
    simp [Nat.add_assoc, Nat.add_comm 1]

/-- From `IDLE` the bytes of a frame and a silence not yet complete leave the frame waiting (R105, R110, R111). -/
theorem runSteps_frame {f : List Byte} {n : Nat} (hi : s.Inv) (hp : s.phase = .idle) (hf : f ≠ [])
    (hlen : f.length ≤ rxMax) (hn : n < s.cfg.t35Ticks)
    (hin : s.inputs = f.map Input.rxByte ++ (List.replicate n Input.tick ++ rest)) :
    runSteps (f.length + n) s = .next { s with inputs := rest, rxBuf := f, idleCnt := n, phase := .receive } := by
  obtain ⟨hw, _, hbuf, _⟩ := (inv_iff_of_idle hp).mp hi
  have hbytes := runSteps_bytes hw (by simp [hp]) hf (by simpa [hbuf] using hlen) hin
  rw [runSteps_add hbytes, runSteps_ticks (by exact hw) rfl (by simpa using hn) rfl]
  simp [hbuf]

/-- The end of an accepted frame leaves what `Dispatch` returns, and consumes the receive side (R112, R116). -/
theorem step_eq_rawDispatch {u : Byte} {sl : Nat} {p : List Byte} (hf : FrameEndsNext s rest)
    (hh : HoldsRequest s u sl p) :
    step s = .next (consumeFrame (State.replied { s with inputs := rest } u (rawDispatch s sl p))) := by
  have ⟨_, _, hp, _⟩ := hh
  rw [step_of_holds hf hh, dispatchPdu_eq_rawDispatch (s := { s with inputs := rest }) hh.serves hp,
    rawDispatch_congr (s := s) rfl rfl]
  rfl

/-- A silence has at least one tick (R8, R11). -/
theorem exists_t35Ticks_eq_succ {cfg : Config} (h : cfg.wf = true) : ∃ n, cfg.t35Ticks = n + 1 := by
  simp only [Config.wf, Bool.and_eq_true, decide_eq_true_eq] at h
  exact Nat.exists_eq_succ_of_ne_zero (by omega)

/-- The events of a line are its frame, the ticks of an incomplete silence, and the one that completes it (R90). -/
theorem events_eq {cfg : Config} {n : Nat} (h : cfg.t35Ticks = n + 1) (l : RequestLine) :
    l.events cfg = l.frame.map Input.rxByte ++ (List.replicate n Input.tick ++ [Input.tick]) := by
  rw [RequestLine.events, h, List.replicate_succ']

@[simp] theorem raw_frame (u : Byte) (pdu : List Byte) : (RequestLine.raw u pdu).frame = rtuFrame u pdu := rfl

end Runs

/-- Settles O22: the frame is received whole, and the tick that completes the silence dispatches its PDU. -/
theorem requestLineIsAnswered : Obligations.RequestLineIsAnswered := by
  intro s u sl pdu rest hinv hp hroute hpdu hlen hin
  obtain ⟨hw, _, hbuf, hovf, hcnt, _⟩ := (inv_iff_of_idle hp).mp hinv
  obtain ⟨n, hn⟩ := exists_t35Ticks_eq_succ hw
  have hlength : ((RequestLine.raw u pdu).events s.cfg).length = (rtuFrame u pdu).length + n + 1 := by
    simp [events_eq hn, Nat.add_assoc]
  rw [events_eq hn, raw_frame, List.append_assoc, List.append_assoc, List.singleton_append] at hin
  have hreceived := runSteps_frame hinv hp (by simp [rtuFrame]) (by simp [rxMax]; omega) (by omega) hin
  rw [hlength, runSteps_add hreceived, runSteps_one]
  refine (step_eq_rawDispatch (rest := rest) (u := u) (sl := sl) (p := pdu) ?ends ?holds).trans ?dispatched
  case ends => exact ⟨⟨hw, rfl⟩, rfl, hn.le⟩
  case holds => exact ⟨hovf, rfl, hpdu, hroute⟩
  case dispatched =>
    rw [rawDispatch_congr (s := s) rfl rfl, hbuf, hovf, hcnt]
    rfl

end Sys2Proof.Machine
end

section
/-! PROOF. The CRC register (40_frame_codec.md R100 to R104): every byte maps it one to one, so a frame leaves zero
exactly when it ends in its own CRC, and no change of a single byte goes unseen. -/

namespace Sys2Proof.Machine

/-- The bit shifted out selects the exclusive-or with `0xA001`, which has bit 15 set where the shift leaves 0: so bit 15
shows whether it was taken. -/
theorem crcShift_msb (c : Word) : (crcShift c).getLsbD 15 = c.getLsbD 0 := by
  unfold crcShift
  split
  · next h => rw [h]; simp
  · next h => rw [Bool.eq_false_iff.mpr h]; simp

/-- No information is lost in a shift: bit 15 tells the bit shifted out, and the rest is the register moved by one. -/
theorem crcShift_injective : Function.Injective crcShift := by
  intro c d h
  have hlow : c.getLsbD 0 = d.getLsbD 0 := by rw [← crcShift_msb, h, crcShift_msb]
  have hrest : c >>> 1 = d >>> 1 := by
    rw [crcShift, crcShift, hlow] at h
    split at h
    · exact (BitVec.xor_left_inj _).mp h
    · exact h
  refine BitVec.eq_of_getLsbD_eq fun i hi => ?_
  cases i with
  | zero => exact hlow
  | succ i => simpa [Nat.add_comm] using congrArg (BitVec.getLsbD · i) hrest

/-- Bits that are 0 leave the register without an exclusive-or. -/
theorem crcShift_iterate_of_zeros {n : Nat} {c : Word} (h : ∀ i < n, c.getLsbD i = false) :
    crcShift^[n] c = c >>> n := by
  induction n with
  | zero => simp
  | succ n ih =>
    rw [Function.iterate_succ_apply', ih fun i hi => h i (by omega), crcShift, if_neg, BitVec.shiftRight_add]
    simp [h n (by omega)]

theorem crcByte_eq_iterate (c : Word) (b : Byte) : crcByte c b = crcShift^[8] (c ^^^ b.setWidth 16) := rfl

/-- One byte maps the register one to one. -/
theorem crcByte_injective_register (b : Byte) : Function.Injective (crcByte · b) := fun _ _ h =>
  (BitVec.xor_left_inj _).mp (crcShift_injective.iterate 8 h)

/-- On a given register different bytes leave different registers. -/
theorem crcByte_injective_byte (c : Word) : Function.Injective (crcByte c) := fun x y h => by
  have hw : x.setWidth 16 = y.setWidth 16 := (BitVec.xor_right_inj _).mp (crcShift_injective.iterate 8 h)
  simpa using congrArg (BitVec.setWidth 8) hw

/-- Any bytes map the register one to one. -/
theorem foldl_crcByte_injective (m : List Byte) : Function.Injective (m.foldl crcByte) := by
  induction m with
  | nil => exact fun _ _ h => h
  | cons b m ih => exact ih.comp (crcByte_injective_register b)

/-- The low byte of the register itself brings down its high byte. -/
theorem crcByte_lo8 (c : Word) : crcByte c (lo8 c) = (hi8 c).setWidth 16 := by
  have hlow : ∀ i < 8, (c ^^^ (lo8 c).setWidth 16).getLsbD i = false := fun i hi => by
    simp [lo8, hi, hi.trans (by decide : 8 < 16)]
  rw [crcByte_eq_iterate, crcShift_iterate_of_zeros hlow]
  refine BitVec.eq_of_getLsbD_eq fun i hi => ?_
  by_cases h : i < 8
  · simp [hi8, lo8, hi, h]
  · simp [hi8, lo8, h, BitVec.getLsbD_of_ge c (8 + i) (by omega)]

/-- The register fed its own two bytes, low byte first, is left at zero (R102). -/
theorem foldl_crcByte_crcBytes (c : Word) : (crcBytes c).foldl crcByte c = 0x0000#16 := by
  change crcByte (crcByte c (lo8 c)) (hi8 c) = 0x0000#16
  rw [crcByte_lo8, crcByte_eq_iterate, BitVec.xor_self]
  exact crcShift_iterate_of_zeros (by simp)

/-- A frame leaves zero exactly when its last two bytes are the CRC of those before (R102, R103). -/
theorem crc16_append_eq_zero_iff (m : List Byte) (lo hi : Byte) :
    crc16 (m ++ [lo, hi]) = 0x0000#16 ↔ crc16 m = be16 hi lo := by
  have hzero : [lo, hi].foldl crcByte (be16 hi lo) = 0x0000#16 := by
    simpa [crcBytes] using foldl_crcByte_crcBytes (be16 hi lo)
  rw [crc16_append, ← hzero]
  exact (foldl_crcByte_injective [lo, hi]).eq_iff

theorem crcOk_iff_residue {f : List Byte} (h : 2 ≤ f.length) : crcOk f = true ↔ crc16 f = 0x0000#16 := by
  rw [frame_split h, crcOk_append, beq_iff_eq, crc16_append_eq_zero_iff]

/-- Two sequences that differ in exactly one byte have different CRCs (R102). -/
theorem crc16_ne_of_byte_ne {x y : Byte} (h : x ≠ y) (m n : List Byte) :
    crc16 (m ++ x :: n) ≠ crc16 (m ++ y :: n) := by
  rw [crc16_append, crc16_append]
  exact fun he => h (crcByte_injective_byte _ (foldl_crcByte_injective n he))

theorem crc16_set_ne {f : List Byte} {j : Nat} {x : Byte} (hj : j < f.length) (hx : x ≠ f.getD j 0#8) :
    crc16 (f.set j x) ≠ crc16 f := by
  have hset : f.set j x = f.take j ++ x :: f.drop (j + 1) := by rw [List.set_eq_take_append_cons_drop, if_pos hj]
  have hget : f = f.take j ++ f.getD j 0#8 :: f.drop (j + 1) := by simp [hj]
  have h := crc16_ne_of_byte_ne hx (f.take j) (f.drop (j + 1))
  rwa [← hset, ← hget] at h

/-- A frame that passes the check fails it with any one byte replaced by another value (R102, R103). -/
theorem crcOk_set {f : List Byte} {j : Nat} {x : Byte} (hl : 2 ≤ f.length) (hc : crcOk f = true) (hj : j < f.length)
    (hx : x ≠ f.getD j 0#8) : crcOk (f.set j x) = false := by
  rw [Bool.eq_false_iff, Ne, crcOk_iff_residue (by simpa using hl), ← (crcOk_iff_residue hl).mp hc]
  exact crc16_set_ne hj hx

/-- Settles O10: its own CRC takes the register to zero, and every byte maps the register one to one. -/
theorem crcResidueAndErrorDetection : Obligations.CrcResidueAndErrorDetection := by
  refine ⟨fun m => ?_, fun m m' b h => ?_, fun m n x y h => crc16_ne_of_byte_ne h m n⟩
  · rw [crc16_append]
    exact foldl_crcByte_crcBytes (crc16 m)
  · rw [crc16_append, crc16_append, h]

/-- Settles O11: the check compares two words, and a zero residue is the same comparison. -/
theorem crcCheckIsZeroResidue : Obligations.CrcCheckIsZeroResidue := by
  refine fun f hl => ⟨?_, crcOk_iff_residue hl⟩
  rw [crcOk, beq_iff_eq, ← BitVec.toNat_inj, be16_toNat, Nat.add_comm]

/-- Settles O12, by the frame's definition, its check, and running the encoder on the two worked frames. -/
theorem encodedFramesPassTheCheck : Obligations.EncodedFramesPassTheCheck := fun u p =>
  ⟨rfl, crcOk_rtuFrame u p, by decide +kernel, by decide +kernel⟩

/-- Settles O13, by running the CRC on the six inputs. -/
theorem crcWorkedValues : Obligations.CrcWorkedValues := by
  unfold Obligations.CrcWorkedValues
  decide +kernel

end Sys2Proof.Machine
end

section
/-! PROOF. What one event does to the receive and the transmit side (40_frame_codec.md R110, R111, R118, R119), how a
frame ends (R112 to R116), and a whole frame received or sent (R105, R117). -/

namespace Sys2Proof.Machine

section FrameEnd

variable {s : State} {rest : List Input}

/-- The tick that completes the silence ends the frame (R111). -/
theorem step_of_frameEndsNext (h : FrameEndsNext s rest) : step s = frameEnd { s with inputs := rest } := by
  obtain ⟨hn, hp, hc⟩ := h
  rw [step_of_next hn, react, tick_of_receive (by exact hp), if_neg (by exact Nat.not_lt.mpr hc)]

theorem drop_consumeFrame (r : DropReason) (s : State) : drop r (consumeFrame s) = s.dropped r := rfl

/-- A frame during which bytes were lost is dropped (R113). -/
theorem frameEnd_of_overflow (ho : s.rxOvf = true) : frameEnd s = .next (s.dropped .overflow) := if_pos ho

/-- A frame too short for a unit identifier, a function code and a CRC is dropped (R113). -/
theorem frameEnd_of_short (ho : s.rxOvf = false) (hl : s.rxLen < 4) : frameEnd s = .next (s.dropped .short) := by
  rw [frameEnd, ho, if_neg Bool.false_ne_true, if_pos (by exact hl), drop_consumeFrame]

/-- A frame whose CRC does not match is dropped (R114). -/
theorem frameEnd_of_bad_crc (ho : s.rxOvf = false) (hl : 4 ≤ s.rxLen) (hc : crcOk s.rxBuf = false) :
    frameEnd s = .next (s.dropped .crc) := by
  rw [frameEnd, ho, hc, if_neg Bool.false_ne_true, if_neg (by exact Nat.not_lt.mpr hl), if_neg Bool.false_ne_true,
    drop_consumeFrame]

theorem target_of_unrouted (hl : s.rxBuf ≠ []) (hr : route s.cfg (s.rxBuf.headD 0#8) = none) :
    s.target = .error .unrouted := by
  obtain ⟨u, f, hf⟩ := List.exists_cons_of_ne_nil hl
  rw [hf, List.headD_cons] at hr
  simp [State.target, hf, hr]

/-- A frame for no slave of the block is dropped (R115). -/
theorem frameEnd_of_unrouted (ho : s.rxOvf = false) (hl : 4 ≤ s.rxLen) (hc : crcOk s.rxBuf = true)
    (hr : route s.cfg (s.rxBuf.headD 0#8) = none) : frameEnd s = .next (s.dropped .unrouted) := by
  have hne : s.rxBuf ≠ [] := List.length_pos_iff.mp (Nat.lt_of_lt_of_le (by decide) hl)
  rw [frameEnd, ho, hc, target_of_unrouted hne hr, if_neg Bool.false_ne_true, if_neg (by exact Nat.not_lt.mpr hl),
    if_pos rfl]
  rfl

end FrameEnd

/-- Settles O17, check by check. -/
theorem framingChecksDropInOrder : Obligations.FramingChecksDropInOrder := by
  intro s rest h
  rw [step_of_frameEndsNext h]
  exact ⟨frameEnd_of_overflow (s := { s with inputs := rest }), frameEnd_of_short (s := { s with inputs := rest }),
    frameEnd_of_bad_crc (s := { s with inputs := rest }), frameEnd_of_unrouted (s := { s with inputs := rest })⟩

/-- Settles O25: the frame's CRC was right, so with one byte changed it is wrong. -/
theorem oneCorruptByteDropsTheFrame : Obligations.OneCorruptByteDropsTheFrame := by
  intro s rest f j x h ho hl hc hj hx hbuf
  have hbad : crcOk s.rxBuf = false := hbuf ▸ crcOk_set (by omega) hc hj hx
  have hlen : 4 ≤ s.rxLen := by simpa [State.rxLen, hbuf] using hl
  rw [step_of_frameEndsNext h]
  exact frameEnd_of_bad_crc (s := { s with inputs := rest }) ho hlen hbad

/-- Settles O18: the frame end dispatches the PDU it holds, and a frame that passes the checks holds one. -/
theorem stepRunsTheDecodedRequest : Obligations.StepRunsTheDecodedRequest := by
  refine ⟨fun s rest u sl pdu hf hh => ⟨fun i hd => ?_, fun e hd => ?_⟩, fun f hl hc => ?_⟩
  · rw [step_of_holds hf hh, dispatchPdu, hd]
  · rw [step_of_holds hf hh, dispatchPdu, hd]
    rfl
  · cases f with
    | nil => simp at hl
    | cons u f =>
      obtain ⟨hframe, hpdu⟩ := eq_rtuFrame_of_crcOk hl hc rfl
      exact ⟨u, _, hpdu, hframe⟩

/-- `Dispatch` answers with a request's reply, or with an exception alone (R133, R203). -/
theorem rawDispatch_cases (s : State) (sl : Nat) {p : List Byte} (hp : p ≠ []) :
    (∃ i r, handlerOf i s sl = .ok r ∧ rawDispatch s sl p = r.raw) ∨
    (∃ fc e, rawDispatch s sl p = ([fc ||| 0x80#8, ExcCode.code e], s.banks, [])) := by
  unfold rawDispatch
  cases hd : decode p with
  | error e => exact .inr ⟨_, e, by rw [rawHandler_of_decode_error s sl hp hd]⟩
  | ok i =>
    rw [rawHandler_of_decode_ok s sl hd]
    cases hr : handlerOf i s sl with
    | ok r => exact .inl ⟨i, r, hr, rfl⟩
    | error e => exact .inr ⟨_, e, rfl⟩

/-- What `Dispatch` returns: at most one event, and a PDU that fits the response buffer when framed (R116, R133). -/
theorem rawDispatch_bounds (s : State) (sl : Nat) {p : List Byte} (hp : p ≠ []) :
    (rawDispatch s sl p).2.2.length ≤ 1 ∧ 2 ≤ (rawDispatch s sl p).1.length ∧ (rawDispatch s sl p).1.length ≤ 252 := by
  rcases rawDispatch_cases s sl hp with ⟨i, r, hr, h⟩ | ⟨fc, e, h⟩ <;> rw [h]
  · exact ⟨le_rfl, handlerOf_response_length hr⟩
  · simp

/-- Settles O24: the step is that of `Dispatch`, and its response PDU has 2 to 252 bytes. -/
theorem acceptedFrameIsDispatched : Obligations.AcceptedFrameIsDispatched := by
  intro s rest u sl pdu hf hh
  have ⟨_, _, hp, _⟩ := hh
  obtain ⟨hobs, hmin, hmax⟩ := rawDispatch_bounds s sl hp
  refine ⟨step_eq_rawDispatch hf hh, hobs, ?_, ?_⟩ <;> rw [rtuFrame_length] <;> omega

section OneEvent

variable {s : State} {rest : List Input}

/-- A byte that finds the receive buffer full is lost, and the overflow flag says so (R110). -/
theorem step_rxByte_of_full {b : Byte} (hn : NextEvent s (.rxByte b) rest) (hp : s.phase ≠ .transmit)
    (hfull : 256 ≤ s.rxLen) :
    step s = .next { s with inputs := rest, rxOvf := true, idleCnt := 0, phase := .receive } := by
  have hroom : ¬ s.rxBuf.length < rxMax := Nat.not_lt.mpr hfull
  rw [step_of_next hn, react, receiveByte_of_not_transmit (by exact hp)]
  simp [overflowAfterByte, hroom]

/-- The transmitter sends the byte at `tx_pos`; more bytes are left, or the block is idle (R118). -/
theorem step_txTake (hn : NextEvent s .txTake rest) (hp : s.phase = .transmit) (hb : s.txPos < s.txBuf.length) :
    step s = .next (emit (.txByte s.txBuf[s.txPos])
      (if s.txPos + 1 < s.txLen then { s with inputs := rest, txPos := s.txPos + 1 }
      else { s with inputs := rest, txBuf := [], txPos := 0, phase := .idle })) := by
  rw [step_of_next hn]
  exact takeByte_of_transmit (s := { s with inputs := rest }) hp hb

end OneEvent

/-- Settles O14, by the room left in the receive buffer. -/
theorem receivedByteIsStoredOrLost : Obligations.ReceivedByteIsStoredOrLost := fun _ _ _ hn hp =>
  ⟨step_rxByte_of_room hn hp, step_rxByte_of_full hn hp⟩

/-- Settles O15: in `TRANSMIT` the reaction to a byte is one output event. -/
theorem byteDuringResponseIsDiscarded : Obligations.ByteDuringResponseIsDiscarded := by
  intro s b rest hn hp
  rw [step_of_next hn, react, receiveByte_of_transmit (by exact hp)]
  rfl

/-- Settles O16, by the phase and the silence counted so far. -/
theorem tickCountsTheSilence : Obligations.TickCountsTheSilence := by
  intro s rest hn
  refine ⟨fun hp => ?_, step_tick_of_lt hn, fun hp hc => step_of_frameEndsNext ⟨hn, hp, hc⟩⟩
  rw [step_of_next hn, react, tick_of_not_receive (by exact hp)]

/-- Settles O19, by the phase and the bytes left. -/
theorem transmitterTakesTheNextByte : Obligations.TransmitterTakesTheNextByte := by
  intro s rest hn
  refine ⟨fun hp => ?_, fun b hp hget => ?_⟩
  · rw [step_of_next hn, react, takeByte_of_not_transmit (by exact hp)]
  · obtain ⟨hb, rfl⟩ := List.getElem?_eq_some_iff.mp hget
    rw [step_txTake hn hp hb]
    exact ⟨fun hl => by rw [if_pos hl]; rfl, fun hl => by rw [if_neg (Nat.not_lt.mpr hl)]; rfl⟩

/-- Settles O20, by induction on the bytes that remain: each `TxTake` sends the first of them. -/
theorem responseLeavesInOrder : Obligations.ResponseLeavesInOrder := by
  intro s n rest hw hp hpos hn hin
  induction n generalizing s with
  | zero => omega
  | succ n ih =>
    have hb : s.txPos < s.txBuf.length := hpos
    rw [runSteps_succ (step_txTake ⟨hw, hin⟩ hp hb), List.drop_eq_getElem_cons hb, List.map_cons]
    by_cases hl : s.txPos + 1 < s.txLen
    · rw [if_pos hl, ih _ (by exact hw) (by exact hp) (by exact hl) (by simp [State.txLen] at hn ⊢; omega) rfl]
      simp
    · have hlast : n = 0 := by omega
      have hnone : s.txBuf.drop (s.txPos + 1) = [] := List.drop_of_length_le (Nat.le_of_not_lt hl)
      rw [if_neg hl, hlast, hnone]
      rfl

/-- Settles O21: the bytes find room, and the ticks leave the silence incomplete. -/
theorem frameIsReceivedWhole : Obligations.FrameIsReceivedWhole := by
  intro s f n rest hi hp hf hlen hn hin
  rw [List.append_assoc] at hin
  exact runSteps_frame hi hp hf hlen hn hin

end Sys2Proof.Machine
end

section
/-! PROOF. Routing (41_request_decoder.md R131), what a dispatched PDU is answered with (R132, R133, R136), and the order
of the checks inside a request (R134, R135). -/

namespace Sys2Proof.Machine

section Routing

variable {cfg : Config} {u : Byte} {sl : Nat}

theorem route_of_single (h : cfg.mode = .single) : route cfg u = some 0 := by rw [route, h]

theorem route_of_multi (h : cfg.mode = .multi) : route cfg u = cfg.slaves.findIdx? fun c => c.unitId == u := by
  rw [route, h]

/-- In multi mode no two slaves have one unit identifier (R7, R11). -/
theorem unitIds_nodup (hw : cfg.wf = true) (h : cfg.mode = .multi) : (cfg.slaves.map SlaveConfig.unitId).Nodup := by
  simp only [Config.wf, Config.modeWf, h, Bool.and_eq_true, decide_eq_true_eq] at hw
  obtain ⟨⟨⟨_, hids⟩, _⟩, _⟩ := hw
  exact hids

/-- Where the unit identifiers differ, the first slave that has one is the only one that has it. -/
theorem findIdx_unitId_eq_some_iff {cs : List SlaveConfig} (h : (cs.map SlaveConfig.unitId).Nodup) :
    cs.findIdx? (fun c => c.unitId == u) = some sl ↔ cs[sl]?.map SlaveConfig.unitId = some u := by
  rw [← List.getElem?_map, List.getElem?_eq_some_iff, List.findIdx?_eq_some_iff_getElem]
  simp only [List.length_map, List.getElem_map, beq_iff_eq]
  refine exists_congr fun hl => and_iff_left_of_imp fun hu j hj hju => ?_
  have hjl : j < (cs.map SlaveConfig.unitId).length := by rw [List.length_map]; omega
  have hids : (cs.map SlaveConfig.unitId)[j] = (cs.map SlaveConfig.unitId)[sl]'(by simpa using hl) := by
    rw [List.getElem_map, List.getElem_map, hju, hu]
  exact hj.ne ((h.getElem_inj_iff).mp hids)

end Routing

/-- Settles O38: single mode does not look at the identifiers, and in multi mode they are pairwise different. -/
theorem routingFollowsTheMode : Obligations.RoutingFollowsTheMode := by
  refine fun cfg hw u => ⟨route_of_single, fun hm => ?_⟩
  rw [route_of_multi hm]
  exact ⟨fun sl => findIdx_unitId_eq_some_iff (unitIds_nodup hw hm), by simp⟩

/-- Settles O26: decoding and running a PDU leaves what `Dispatch` returned. -/
theorem dispatchMatchesPseudocode : Obligations.DispatchMatchesPseudocode := fun _ _ _ _ =>
  dispatchPdu_eq_rawDispatch

section Answers

variable {s : State} {sl : Nat} {u fc : Byte} {payload : List Byte}

/-- `Dispatch` completes the request that bears the PDU's function code, or raises 01, 02 or 03 and does nothing else
(R133, R136, R204). -/
theorem rawDispatch_completes_or_raises (s : State) (sl : Nat) (fc : Byte) (payload : List Byte) :
    (∃ i r, handlerOf i s sl = .ok r ∧ i.fc = fc ∧ rawDispatch s sl (fc :: payload) = r.raw) ∨
    (∃ e, e ≠ ExcCode.serverDeviceFailure ∧
      rawDispatch s sl (fc :: payload) = ([fc ||| 0x80#8, e.code], s.banks, [])) := by
  have raise : ∀ {e}, rawHandler s sl (fc :: payload) = .error e →
      rawDispatch s sl (fc :: payload) = ([fc ||| 0x80#8, e.code], s.banks, []) := fun h => by
    rw [rawDispatch, h]; rfl
  cases hd : decode (fc :: payload) with
  | error e =>
    have hraw := raise (rawHandler_of_decode_error s sl (List.cons_ne_nil _ _) hd)
    rcases decode_cases fc payload with ⟨i, h⟩ | ⟨_, h⟩ | ⟨_, h⟩ <;> cases hd.symm.trans h
    · exact .inr ⟨.illegalDataValue, by decide, hraw⟩
    · exact .inr ⟨.illegalFunction, by decide, hraw⟩
  | ok i =>
    have hraw := rawHandler_of_decode_ok s sl hd
    cases hr : handlerOf i s sl with
    | ok r => exact .inl ⟨i, r, hr, (head_of_decode_ok hd).symm, by rw [rawDispatch, hraw, hr]; rfl⟩
    | error e =>
      rw [hr] at hraw
      exact .inr ⟨e, by rcases handlerOf_error hr with rfl | rfl <;> decide, raise hraw⟩

/-- A raw reply that raises is the exception response and nothing else (R203). -/
theorem replied_exception (s : State) (u : Byte) (p : List Byte) :
    s.replied u (p, s.banks, []) = s.answered u p := by
  simp [State.replied, State.answered]

/-- The byte after the unit identifier of a response frame is the first of its PDU (R104). -/
theorem rtuFrame_getD_one (u : Byte) {p : List Byte} (h : p.head? = some fc) : (rtuFrame u p).getD 1 0#8 = fc := by
  obtain ⟨q, rfl⟩ := List.head?_eq_some_iff.mp h
  rfl

/-- Bit 7 of a function code, which marks an exception, is not among its low seven (R75). -/
theorem or_0x80_and_0x7F (fc : Byte) : (fc ||| 0x80#8) &&& 0x7F#8 = fc &&& 0x7F#8 := by
  have hmask : 0x80#8 &&& 0x7F#8 = 0#8 := by decide
  rw [BitVec.and_or_distrib_right, hmask, BitVec.or_zero]

/-- The response begins with the request's function code, but for bit 7 (R75, R132). -/
theorem rawDispatch_functionCode (u : Byte) :
    (rtuFrame u (rawDispatch s sl (fc :: payload)).1).getD 1 0#8 &&& 0x7F#8 = fc &&& 0x7F#8 := by
  rcases rawDispatch_completes_or_raises s sl fc payload with ⟨i, r, hr, rfl, h⟩ | ⟨e, _, h⟩ <;> rw [h]
  · rw [Reply.raw, rtuFrame_getD_one u (handlerOf_response_head hr)]
  · rw [rtuFrame_getD_one u rfl, or_0x80_and_0x7F]

end Answers

/-- Settles O23: the response frame of an accepted frame is that of `Dispatch`, framed for the unit received. -/
theorem acceptedFrameIsAnswered : Obligations.AcceptedFrameIsAnswered := by
  intro s rest u sl pdu hf hh
  have ⟨_, _, hpdu, _⟩ := hh
  obtain ⟨hstep, _, hmin, hmax⟩ := acceptedFrameIsDispatched s rest u sl pdu hf hh
  obtain ⟨fc, payload, rfl⟩ := List.exists_cons_of_ne_nil hpdu
  exact ⟨_, hstep, rfl, crcOk_rtuFrame .., hmin, hmax, rfl, rtuFrame_head .., rawDispatch_functionCode u, rfl, rfl, rfl⟩

/-- Settles O36: a handler that succeeds emits its one event, and every exception leaves all but the response. -/
theorem exceptionLeavesNoTrace : Obligations.ExceptionLeavesNoTrace := by
  intro s u sl pdu hs hpdu
  refine ⟨_, dispatchPdu_eq_rawDispatch hs hpdu, ?_⟩
  obtain ⟨fc, payload, rfl⟩ := List.exists_cons_of_ne_nil hpdu
  rcases rawDispatch_completes_or_raises s sl fc payload with ⟨i, r, hr, rfl, h⟩ | ⟨e, he, h⟩ <;> rw [h]
  · have hcode := rtuFrame_getD_one u (handlerOf_response_head hr)
    rcases handlerOf_ok hr with ⟨k, a, n, _, _, ho⟩ | ⟨a, v, _, _, _, ho⟩
    · exact .inl ⟨_, k, a, n, _, by rw [← ho]; rfl, hcode⟩
    · exact .inl ⟨_, v.kind, a, v.length, v, by rw [← ho]; rfl, hcode⟩
  · exact .inr ⟨e, he, replied_exception .., rfl⟩

section Checks

/-- The address check and what follows it: 02 outside the bank, inside it one event on the range addressed (R134). -/
abbrev AddressChecked (s : State) (sl : Nat) (k : Kind) (addr n : Nat) (o : Except ExcCode RawReply) : Prop :=
  (¬ InBank s.cfg sl k addr n → o = .error .illegalDataAddress) ∧
    (InBank s.cfg sl k addr n → ∃ resp m op v, o = .ok (resp, m, [.obs op sl k addr n v]))

/-- The value checks before the address check: 03 where they fail (R134). -/
abbrev ValueChecked (s : State) (sl : Nat) (k : Kind) (addr n : Nat) (valid : Bool) (o : Except ExcCode RawReply) :
    Prop :=
  (valid = false → o = .error .illegalDataValue) ∧ (valid = true → AddressChecked s sl k addr n o)

variable {s : State} {sl addr n : Nat} {k : Kind} {p : List Byte} {fc : Byte} {payload : List Byte}

theorem valueChecked_ite {invalid : Prop} [Decidable invalid] {valid : Bool} {o : Except ExcCode RawReply}
    (hv : valid = true ↔ ¬ invalid) (ho : AddressChecked s sl k addr n o) :
    ValueChecked s sl k addr n valid (if invalid then .error .illegalDataValue else o) := by
  by_cases h : invalid
  · rw [if_pos h]
    exact ⟨fun _ => rfl, fun hvalid => absurd h (hv.mp hvalid)⟩
  · rw [if_neg h]
    exact ⟨fun hvalid => absurd (hv.mpr h) (by simp [hvalid]), fun _ => ho⟩

theorem addressChecked_ite {resp : List Byte} {m : Memory} {op : OpKind} {v : BankValues} :
    AddressChecked s sl k addr n
      (if s.cfg.present sl k = false ∨ addr + n > s.cfg.len sl k then .error .illegalDataAddress
        else .ok (resp, m, [.obs op sl k addr n v])) := by
  rw [AddressChecked, inBank_iff_not_raw]
  exact ⟨fun h => if_pos (not_not.mp h), fun h => ⟨_, _, _, _, if_neg h⟩⟩

theorem rawRead_checked (limit : Nat) (byteCount : Nat → Nat) (k : Kind) :
    ValueChecked s sl k (rawField p 1) (rawField p 3)
      (p.length == 5 && decide (1 ≤ rawField p 3) && decide (rawField p 3 ≤ limit))
      (rawRead limit byteCount k s sl p) := by
  rw [rawRead, ← ite_or]
  exact valueChecked_ite (by simp; omega) addressChecked_ite

theorem rawWriteCoil_checked :
    ValueChecked s sl .co (rawField p 1) 1 (p.length == 5 && (rawField p 3 == 0xFF00 || rawField p 3 == 0))
      (rawWriteCoil s sl p) := by
  rw [rawWriteCoil, ← ite_or]
  exact valueChecked_ite (by simp; omega) addressChecked_ite

theorem rawWriteReg_checked : ValueChecked s sl .hr (rawField p 1) 1 (p.length == 5) (rawWriteReg s sl p) :=
  valueChecked_ite (by simp) addressChecked_ite

theorem rawWriteBatch_checked (limit : Nat) (byteCount : Nat → Nat) (values : List Byte → Nat → BankValues)
    (hk : ∀ d q, (values d q).kind = k) (hn : ∀ d q, (values d q).length = q) :
    ValueChecked s sl k (rawField p 1) (rawField p 3)
      (decide (6 ≤ p.length) && decide (1 ≤ rawField p 3) && decide (rawField p 3 ≤ limit) &&
        (p.getD 5 0#8).toNat == byteCount (rawField p 3) && p.length == 6 + (p.getD 5 0#8).toNat)
      (rawWriteBatch limit byteCount values s sl p) := by
  rw [rawWriteBatch, rawWrite, hk, hn, ← ite_or, ← ite_or, ← ite_or]
  exact valueChecked_ite (by simp; omega) addressChecked_ite

/-- The handler of a supported code makes the value checks of R135, and then the address check, on the fields of the
PDU (R133, R134). -/
theorem rawHandler_checked (s : State) (sl : Nat) (hfc : SupportedCode fc) (payload : List Byte) :
    ValueChecked s sl (codeKind fc) (rawField (fc :: payload) 1) (rawQuantity (fc :: payload))
      (valueChecks (fc :: payload)) (rawHandler s sl (fc :: payload)) := by
  rcases code_cases fc with rfl | rfl | rfl | rfl | rfl | rfl | rfl | rfl | hn
  · exact rawRead_checked 2000 ceil8 .co
  · exact rawRead_checked 2000 ceil8 .di
  · exact rawRead_checked 125 (2 * ·) .hr
  · exact rawRead_checked 125 (2 * ·) .ir
  · exact rawWriteCoil_checked
  · exact rawWriteReg_checked
  · exact rawWriteBatch_checked 1968 ceil8 (fun d q => .co (unpackBits d q)) (fun _ _ => rfl) unpackBits_length
  · exact rawWriteBatch_checked 123 (2 * ·) (fun d q => .hr (unpackWords d q)) (fun _ _ => rfl) unpackWords_length
  · exact absurd hfc hn

/-- What the raw handler raises is what a routed PDU is answered with (R133, R203). -/
theorem dispatchPdu_of_rawHandler_error {u : Byte} {e : ExcCode} (hs : Serves s u sl)
    (h : rawHandler s sl (fc :: payload) = .error e) :
    dispatchPdu u (fc :: payload) s = .next (s.answered u [fc ||| 0x80#8, e.code]) := by
  rw [dispatchPdu_eq_rawDispatch hs (List.cons_ne_nil _ _), rawDispatch, h]
  exact congrArg _ (replied_exception ..)

end Checks

/-- Settles O37, by the checks of the raw handlers in their order. -/
theorem firstFailingCheckIsReported : Obligations.FirstFailingCheckIsReported := by
  intro s u sl fc payload hs
  refine ⟨fun hfc => ?_, fun hfc hv => ?_, fun hfc hv hb => ?_, fun hfc hv hb => ?_⟩
  · exact dispatchPdu_of_rawHandler_error hs (rawHandler_of_unsupported s sl hfc payload)
  · obtain ⟨hinvalid, _⟩ := rawHandler_checked s sl hfc payload
    exact dispatchPdu_of_rawHandler_error hs (hinvalid hv)
  · obtain ⟨_, hvalid⟩ := rawHandler_checked s sl hfc payload
    obtain ⟨houtside, _⟩ := hvalid hv
    exact dispatchPdu_of_rawHandler_error hs (houtside hb)
  · obtain ⟨_, hvalid⟩ := rawHandler_checked s sl hfc payload
    obtain ⟨_, hinside⟩ := hvalid hv
    obtain ⟨resp, m, op, v, h⟩ := hinside hb
    refine ⟨_, op, v, dispatchPdu_eq_rawDispatch hs (List.cons_ne_nil _ _), ?_⟩
    rw [rawDispatch, h]
    rfl

end Sys2Proof.Machine
end

section
/-! PROOF. The outputs (41_request_decoder.md R137, 44_host_port.md R193, 60_exceptions.md R205, R216): no event's reaction
reads them, and an `Obs` is emitted only where a frame was accepted. -/

namespace Sys2Proof.Machine

section EarlierOutputs

/-- The state with outputs emitted before all of its own. -/
def State.after (earlier : List Output) (s : State) : State := { s with outputs := earlier ++ s.outputs }

variable (earlier : List Output) (s : State)

@[simp] theorem withEarlierOutputs_next (t : State) :
    withEarlierOutputs earlier (.next t) = .next (t.after earlier) := rfl

theorem emit_after (e : Output) : emit e (s.after earlier) = (emit e s).after earlier := by
  simp [emit, State.after]

theorem drop_after (r : DropReason) : drop r (s.after earlier) = (drop r s).after earlier :=
  emit_after earlier { s with phase := .idle } (.drop r)

/-- A request handler reads the configuration and the banks only. -/
theorem handlerOf_after (i : Instr) : handlerOf i (s.after earlier) = handlerOf i s := by cases i <;> rfl

theorem exec_after (i : Instr) : exec i (s.after earlier) = withEarlierOutputs earlier (exec i s) := by
  have htgt : (s.after earlier).target = s.target := rfl
  rw [exec_eq_serve, exec_eq_serve, handlerOf_after, serve, serve, htgt]
  cases s.target with
  | error r => exact congrArg _ (drop_after earlier s r)
  | ok p =>
    cases hr : handlerOf i s p.2 with
    | error e => simp only [hr]; rfl
    | ok r =>
      simp only [hr]
      exact congrArg (fun t => Host.Outcome.next (respond p.1 r.response t))
        (emit_after earlier { s with banks := r.banks } r.obs)

theorem dispatchPdu_after (u : Byte) (p : List Byte) :
    dispatchPdu u p (s.after earlier) = withEarlierOutputs earlier (dispatchPdu u p s) := by
  rw [dispatchPdu, dispatchPdu]
  cases decode p with
  | ok i => exact exec_after earlier s i
  | error e => rfl

theorem consumeAfter_withEarlierOutputs (o : Host.Outcome State Fault Refusal) :
    consumeAfter (withEarlierOutputs earlier o) = withEarlierOutputs earlier (consumeAfter o) := by cases o <;> rfl

theorem frameEnd_after : frameEnd (s.after earlier) = withEarlierOutputs earlier (frameEnd s) := by
  have dropped : ∀ r, Host.Outcome.next (drop r (consumeFrame (s.after earlier))) =
      withEarlierOutputs earlier (.next (drop r (consumeFrame s))) := fun r =>
    congrArg _ (drop_after earlier (consumeFrame s) r)
  have htgt : (s.after earlier).target = s.target := rfl
  rw [frameEnd, frameEnd, htgt]
  change (if s.rxOvf then _ else if s.rxBuf.length < 4 then _ else if crcOk s.rxBuf then _ else _) = _
  split
  · exact dropped .overflow
  · split
    · exact dropped .short
    · split
      · cases s.target with
        | error r => exact dropped r
        | ok p => exact (congrArg consumeAfter (dispatchPdu_after ..)).trans (consumeAfter_withEarlierOutputs ..)
      · exact dropped .crc

theorem tick_after : tick (s.after earlier) = withEarlierOutputs earlier (tick s) := by
  by_cases hp : s.phase = .receive
  · rw [tick_of_receive hp, tick_of_receive (s := s.after earlier) hp]
    by_cases hc : s.idleCnt + 1 < s.cfg.t35Ticks
    · rw [if_pos hc, if_pos (by exact hc)]; rfl
    · rw [if_neg hc, if_neg (by exact hc), frameEnd_after]
  · rw [tick_of_not_receive hp, tick_of_not_receive (s := s.after earlier) hp]; rfl

theorem receiveByte_after (b : Byte) : receiveByte b (s.after earlier) = (receiveByte b s).after earlier := by
  by_cases hp : s.phase = .transmit
  · rw [receiveByte_of_transmit hp, receiveByte_of_transmit (s := s.after earlier) hp, emit_after]
  · rw [receiveByte_of_not_transmit hp, receiveByte_of_not_transmit (s := s.after earlier) hp]; rfl

theorem takeByte_after : takeByte (s.after earlier) = withEarlierOutputs earlier (takeByte s) := by
  unfold takeByte
  cases hp : s.phase with
  | idle | receive => simp [State.after, hp]
  | transmit =>
    cases hb : s.txBuf[s.txPos]? with
    | none => simp [State.after, hp, hb, withEarlierOutputs]
    | some b =>
      by_cases hl : s.txPos + 1 < s.txBuf.length <;> simp [State.after, emit, hp, hb, hl]

theorem hostRead_after (sl : Nat) (k : Kind) (addr count : Nat) :
    hostRead sl k addr count (s.after earlier) = withEarlierOutputs earlier (hostRead sl k addr count s) := by
  have hread : memRead (s.after earlier) sl k addr count = memRead s sl k addr count := rfl
  rw [hostRead, hostRead, hread]
  change (if sl < s.cfg.nslaves then _ else _) = _
  split
  · cases memRead s sl k addr count <;> exact congrArg _ (emit_after ..)
  · rfl

theorem hostWrite_after (sl addr : Nat) (v : BankValues) :
    hostWrite sl addr v (s.after earlier) = withEarlierOutputs earlier (hostWrite sl addr v s) := by
  have hwrite : memWrite (s.after earlier) sl addr v = memWrite s sl addr v := rfl
  rw [hostWrite, hostWrite, hwrite]
  change (if sl < s.cfg.nslaves then _ else _) = _
  split
  · cases memWrite s sl addr v with
    | error e => exact congrArg _ (emit_after ..)
    | ok m => exact congrArg _ (emit_after earlier { s with banks := m } _)
  · rfl

/-- No event's reaction reads what was emitted before (R137, R205). -/
theorem react_after (e : Input) : react e (s.after earlier) = withEarlierOutputs earlier (react e s) := by
  cases e with
  | rxByte b => exact congrArg _ (receiveByte_after earlier s b)
  | tick => exact tick_after earlier s
  | txTake => exact takeByte_after earlier s
  | hostRead sl k addr count => exact hostRead_after ..
  | hostWrite sl addr v => exact hostWrite_after ..
  | reset => rfl

end EarlierOutputs

/-- Settles O55: the outputs decide neither which event is next nor the reaction to it. -/
theorem outputsAreNeverRead : Obligations.OutputsAreNeverRead := by
  intro s earlier
  change step (s.after earlier) = _
  cases hw : s.cfg.wf with
  | false => rw [step_of_ill_formed hw, step_of_ill_formed (s := s.after earlier) hw]; rfl
  | true =>
    cases hi : s.inputs with
    | nil => rw [step_of_no_event hw hi, step_of_no_event (s := s.after earlier) hw hi]; rfl
    | cons e rest =>
      rw [step_of_next ⟨hw, hi⟩, step_of_next (s := s.after earlier) ⟨hw, hi⟩]
      exact react_after earlier { s with inputs := rest } e

section Observability

variable {s t : State}

/-- Whatever was emitted is no observability event. -/
abbrev EmitsNoObs (s t : State) : Prop := ∃ es, t.outputs = s.outputs ++ es ∧ ∀ o ∈ es, Output.isObs o = false

/-- A request was held and is answered, and at most one event emitted with it (R116, R137). -/
abbrev AnsweredWithObs (s t : State) : Prop :=
  (∃ u sl p, HoldsRequest s u sl p) ∧ t.phase = .transmit ∧ ∃ es, t.outputs = s.outputs ++ es ∧ es.length ≤ 1

theorem emitsNoObs_of_outputs_eq (h : t.outputs = s.outputs) : EmitsNoObs s t :=
  ⟨[], by simpa using h, by simp⟩

theorem emitsNoObs_of_one {o : Output} (h : t.outputs = s.outputs ++ [o]) (ho : o.isObs = false) : EmitsNoObs s t :=
  ⟨[o], h, by simpa using ho⟩

/-- The frame end emits a `Drop`, or what `Dispatch` returns for the request held (R112, R133). -/
theorem frameEnd_emits (h : frameEnd s = .next t) : EmitsNoObs s t ∨ AnsweredWithObs s t := by
  rcases frameEnd_dropped_or_answered h with ⟨r, rfl, _⟩ | ⟨u, sl, p, _, hh, _⟩
  · exact .inl (emitsNoObs_of_one (o := .drop r) rfl rfl)
  · have ⟨_, _, hp, _⟩ := hh
    rw [frameEnd_of_holds hh, dispatchPdu_eq_rawDispatch hh.serves hp] at h
    cases h
    exact .inr ⟨⟨u, sl, p, hh⟩, rfl, _, rfl, (rawDispatch_bounds s sl hp).1⟩

theorem tick_emits (h : tick s = .next t) :
    EmitsNoObs s t ∨ s.phase = .receive ∧ s.cfg.t35Ticks ≤ s.idleCnt + 1 ∧ AnsweredWithObs s t := by
  rcases tick_cases h with ⟨_, rfl⟩ | ⟨_, _, rfl⟩ | ⟨hp, hc, hf⟩
  · exact .inl (emitsNoObs_of_outputs_eq rfl)
  · exact .inl (emitsNoObs_of_outputs_eq rfl)
  · exact (frameEnd_emits hf).imp_right fun ha => ⟨hp, Nat.le_of_not_lt hc, ha⟩

/-- Every event but a tick emits no `Obs` (R193). -/
theorem react_emitsNoObs {e : Input} (he : e ≠ .tick) (h : react e s = .next t) : EmitsNoObs s t := by
  cases e with
  | rxByte b =>
    cases h
    by_cases hp : s.phase = .transmit
    · rw [receiveByte_of_transmit hp]; exact emitsNoObs_of_one rfl rfl
    · rw [receiveByte_of_not_transmit hp]; exact emitsNoObs_of_outputs_eq rfl
  | tick => exact absurd rfl he
  | txTake =>
    rcases takeByte_cases h with ⟨_, rfl⟩ | ⟨_, _, b, rfl⟩ | ⟨_, _, b, rfl⟩
    · exact emitsNoObs_of_outputs_eq rfl
    · exact emitsNoObs_of_one rfl rfl
    · exact emitsNoObs_of_one rfl rfl
  | hostRead sl k addr count => obtain ⟨_, rfl⟩ := hostRead_cases h; exact emitsNoObs_of_one rfl rfl
  | hostWrite sl addr v => obtain ⟨_, _, rfl, _⟩ := hostWrite_cases h; exact emitsNoObs_of_one rfl rfl
  | reset => cases h; exact emitsNoObs_of_outputs_eq rfl

/-- A step emits no `Obs`, or it is the end of an accepted frame (R137). -/
theorem step_emits (h : step s = .next t) :
    EmitsNoObs s t ∨ (∃ rest, FrameEndsNext s rest) ∧ AnsweredWithObs s t := by
  obtain ⟨hw, ⟨_, rfl⟩ | ⟨e, rest, hi, hr⟩⟩ := step_cases h
  · exact .inl (emitsNoObs_of_outputs_eq rfl)
  · by_cases he : e = .tick
    · subst he
      exact (tick_emits (s := { s with inputs := rest }) hr).imp_right fun ⟨hp, hc, ha⟩ =>
        ⟨⟨rest, ⟨hw, hi⟩, hp, hc⟩, ha⟩
    · exact .inl (react_emitsNoObs (s := { s with inputs := rest }) he hr)

end Observability

/-- Settles O56: only the end of an accepted frame emits an `Obs`, and it emits at most one event. -/
theorem obsOnlyAtAnAcceptedFrame : Obligations.ObsOnlyAtAnAcceptedFrame := by
  intro s t h
  rcases step_emits h with ⟨es, hout, hno⟩ | ⟨⟨rest, hf⟩, ⟨u, sl, p, hh⟩, ht, es, hout, hlen⟩
  · refine ⟨es, hout, ?_, fun ⟨o, ho, hobs⟩ => ?_⟩
    · rw [List.filter_eq_nil_iff.mpr fun o ho => by simp [hno o ho]]
      exact Nat.zero_le 1
    · cases hobs.symm.trans (hno o ho)
  · exact ⟨es, hout, (List.length_filter_le ..).trans hlen, fun _ => ⟨rest, u, sl, p, hf, hh, ht⟩⟩

end Sys2Proof.Machine
end

section
/-! PROOF. The read requests (42_read_requests.md R150 to R154): how bits and words are packed and unpacked (R155, R156,
with 43_write_requests.md R175, R176), and each read request in full. -/

namespace Sys2Proof

open Machine

section Packing

/-- The first `n` bits as a sum of powers of two; a bit beyond the last counts 0 (R155). -/
theorem natOfBits_take (n : Nat) (l : List Bool) :
    natOfBits (l.take n) = ((List.range n).map fun i => (l.getD i false).toNat * 2 ^ i).sum := by
  induction n generalizing l with
  | zero => simp [natOfBits]
  | succ n ih =>
    cases l with
    | nil => simp [natOfBits]
    | cons b bs =>
      have hshift : ∀ i, (bs.getD i false).toNat * 2 ^ (i + 1) = 2 * ((bs.getD i false).toNat * 2 ^ i) := fun i => by
        rw [Nat.pow_succ, Nat.mul_comm 2, Nat.mul_assoc]
      rw [List.take_succ_cons, natOfBits, ih, List.range_succ_eq_map, List.map_cons, List.sum_cons, List.map_map]
      simp only [Function.comp_def, List.getD_cons_zero, List.getD_cons_succ, hshift, List.sum_map_mul_left,
        Nat.pow_zero, Nat.mul_one]

theorem packByte_toNat (l : List Bool) : (packByte l).toNat = natOfBits (l.take 8) := by
  have hlt : natOfBits (l.take 8) < 2 ^ 8 :=
    (natOfBits_lt _).trans_le (Nat.pow_le_pow_right (by decide) (List.length_take_le 8 l))
  rw [packByte, BitVec.toNat_ofNat, Nat.mod_eq_of_lt hlt]

end Packing

/-- Settles O7: a packed byte is the number of its eight bits, and the bits are read back by index. -/
theorem bitPackingLaws : Obligations.BitPackingLaws := by
  refine ⟨fun v => ⟨packBits_length v, fun j hj => ?_⟩, fun d q => ⟨unpackBits_length d q, fun i hi => ?_⟩,
    unpackBits_packBits, fun d d' q => unpackBits_congr⟩
  · rw [packBits_getD v j hj, packByte_toNat, natOfBits_take]
    simp [List.getD_eq_getElem?_getD]
  · rw [unpackBits_getD, decide_eq_true hi, Bool.true_and, bitAt, BitVec.getLsbD_ushiftRight, Nat.add_zero]

/-- Settles O8: the two bytes of each word and the word of each two bytes, by index. -/
theorem wordPackingLaws : Obligations.WordPackingLaws := by
  refine ⟨fun v => ⟨packWords_length v, fun i hi => ?_⟩, fun d q => ⟨unpackWords_length d q, fun i hi => ?_⟩,
    unpackWords_packWords⟩
  · rw [List.getD_eq_getElem v 0#16 hi]
    exact packWords_getD v i hi
  · rw [unpackWords_getD d hi, be16_toNat, rawField]

namespace Machine

section Reads

variable {s : State} {u : Byte} {sl : Nat} {addr qty : Word} {i : Instr} {k : Kind}

/-- A request whose handler raises is answered with the exception response alone (R203). -/
theorem exec_answered_of_error {e : ExcCode} (hs : Serves s u sl) (h : handlerOf i s sl = .error e) :
    exec i s = .next (s.answered u [i.fc ||| 0x80#8, e.code]) := exec_of_handlerOf_error hs h

/-- The value sequences of kind `k` are those made by `mk` from a list, and `num` gives an element as a number (R14,
R137). -/
abbrev ListsOfKind {α : Type} (k : Kind) (mk : List α → BankValues) (num : Option α → Option Word) : Prop :=
  ∀ w : BankValues, w.kind = k → ∃ v : List α, w = mk v ∧ w.length = v.length ∧ ∀ j : Nat, w.numbers[j]? = num v[j]?

theorem listsOfKind_co : ListsOfKind .co .co (Option.map bitWord)
  | .co v, _ => ⟨v, rfl, rfl, fun _ => List.getElem?_map ..⟩

theorem listsOfKind_di : ListsOfKind .di .di (Option.map bitWord)
  | .di v, _ => ⟨v, rfl, rfl, fun _ => List.getElem?_map ..⟩

theorem listsOfKind_hr : ListsOfKind .hr .hr id
  | .hr v, _ => ⟨v, rfl, rfl, fun _ => rfl⟩

theorem listsOfKind_ir : ListsOfKind .ir .ir id
  | .ir v, _ => ⟨v, rfl, rfl, fun _ => rfl⟩

variable {α : Type} {mk : List α → BankValues} {num : Option α → Option Word}

/-- A range inside a bank of canonical form holds as many elements as it addresses, each the one at its address (R33,
R53). -/
theorem exists_slice_eq (hk : ListsOfKind k mk num) (hm : Memory.wf s.cfg s.banks = true) {addr qty : Nat}
    (hb : InBank s.cfg sl k addr qty) :
    ∃ v, (Memory.bank s.banks sl k).slice addr qty = mk v ∧ v.length = qty ∧
      ∀ j, j < qty → s.element sl k (addr + j) = num v[j]? := by
  obtain ⟨v, hv, hlen, hnum⟩ := hk ((Memory.bank s.banks sl k).slice addr qty) (by simp)
  refine ⟨v, hv, hlen.symm.trans (slice_values_length ?_), fun j hj => ?_⟩
  · rw [bank_length hm]; exact hb.2
  · rw [← bank_slice_numbers_getElem? s sl k addr hj, hnum]

/-- The shared read handler in full (R150): 03 for a quantity out of range, 02 for a range outside the bank, else the
elements of the range observed and sent. -/
theorem read_in_full {limit : Nat} {raised : Byte} (hk : ListsOfKind k mk num)
    (hi : handlerOf i s sl = readRequest i.fc k addr qty s sl) (hlimit : readLimit k = limit)
    (hraised : i.fc ||| 0x80#8 = raised) (hm : Memory.wf s.cfg s.banks = true) (hs : Serves s u sl) :
    (qty.toNat = 0 ∨ limit < qty.toNat → exec i s = .next (s.answered u [raised, 3#8])) ∧
    (1 ≤ qty.toNat → qty.toNat ≤ limit → ¬ InBank s.cfg sl k addr.toNat qty.toNat →
      exec i s = .next (s.answered u [raised, 2#8])) ∧
    (1 ≤ qty.toNat → qty.toNat ≤ limit → InBank s.cfg sl k addr.toNat qty.toNat →
      ∃ v : List α, v.length = qty.toNat ∧
        (∀ j, j < qty.toNat → s.element sl k (addr.toNat + j) = num v[j]?) ∧
        exec i s = .next (State.answered
          { s with outputs := s.outputs ++ [.obs .read sl k addr.toNat qty.toNat (mk v)] } u
          ([i.fc, BitVec.ofNat 8 (readByteCount k qty.toNat)] ++ (mk v).pack))) := by
  subst hlimit hraised
  rcases readRequest_cases i.fc k addr qty s sl with ⟨hq, h⟩ | ⟨hq, hb, h⟩ | ⟨hq, hb, h⟩ <;> rw [← hi] at h
  · exact ⟨fun _ => exec_answered_of_error hs h, fun hmin hmax => absurd ⟨hmin, hmax⟩ hq,
      fun hmin hmax => absurd ⟨hmin, hmax⟩ hq⟩
  · exact ⟨fun hn => by omega, fun _ _ _ => exec_answered_of_error hs h, fun _ _ hin => absurd hin hb⟩
  · obtain ⟨v, hv, hlen, helem⟩ := exists_slice_eq hk hm hb
    rw [hv] at h
    exact ⟨fun hn => by omega, fun _ _ hout => absurd hb hout,
      fun _ _ _ => ⟨v, hlen, helem, exec_of_handlerOf_ok hs h⟩⟩

end Reads

/-- Settles O27: the shared read handler at the coils, and the length every read has. -/
theorem rdcoReadsCoils : Obligations.RdcoReadsCoils :=
  ⟨fun _ _ _ addr qty => read_in_full (i := .rdco addr qty) listsOfKind_co rfl rfl (by simp [Instr.fc]),
    fun _ => decode_of_length_ne (by decide)⟩

/-- Settles O28: the shared read handler at the discrete inputs, and the length every read has. -/
theorem rddiReadsDiscreteInputs : Obligations.RddiReadsDiscreteInputs :=
  ⟨fun _ _ _ addr qty => read_in_full (i := .rddi addr qty) listsOfKind_di rfl rfl (by simp [Instr.fc]),
    fun _ => decode_of_length_ne (by decide)⟩

/-- Settles O29: the shared read handler at the holding registers, and the length every read has. -/
theorem rdhrReadsHoldingRegisters : Obligations.RdhrReadsHoldingRegisters :=
  ⟨fun _ _ _ addr qty => read_in_full (i := .rdhr addr qty) listsOfKind_hr rfl rfl (by simp [Instr.fc]),
    fun _ => decode_of_length_ne (by decide)⟩

/-- Settles O30: the shared read handler at the input registers, and the length every read has. -/
theorem rdirReadsInputRegisters : Obligations.RdirReadsInputRegisters :=
  ⟨fun _ _ _ addr qty => read_in_full (i := .rdir addr qty) listsOfKind_ir rfl rfl (by simp [Instr.fc]),
    fun _ => decode_of_length_ne (by decide)⟩

end Machine

end Sys2Proof
end

section
/-! PROOF. The write requests (43_write_requests.md R170 to R174): what the shared write leaves and answers, which PDUs
of a multiple write do not decode, and each write request in full. -/

namespace Sys2Proof.Machine

section Writes

/-- A request for the range at `addr` with values `v`, the `j`-th of them `num j` as a number, is completed (R170): the
range holds the values and every other element is as before, the write is observed, and the response PDU is `pdu`. -/
abbrev WriteCompletes (s : State) (u : Byte) (sl addr : Nat) (v : BankValues) (num : Nat → Option Word)
    (pdu : List Byte) (i : Instr) : Prop :=
  ∃ m : Memory, Memory.wf s.cfg m = true ∧
    (∀ sl' k j, { s with banks := m }.element sl' k j =
      if sl' = sl ∧ k = v.kind ∧ addr ≤ j ∧ j < addr + v.length then num (j - addr) else s.element sl' k j) ∧
    exec i s = .next (State.answered
      { s with banks := m, outputs := s.outputs ++ [.obs .write sl v.kind addr v.length v] } u pdu)

variable {s : State} {u raised : Byte} {sl limit : Nat} {addr w : Word} {v : BankValues} {num : Nat → Option Word}
  {p : Response} {pdu : List Byte} {i : Instr}

/-- A write outside its bank is answered with 02 alone (R54, R203). -/
theorem write_of_not_inBank (hi : handlerOf i s sl = writeRequest addr v p s sl) (hs : Serves s u sl)
    (hb : ¬ InBank s.cfg sl v.kind addr.toNat v.length) :
    exec i s = .next (s.answered u [i.fc ||| 0x80#8, 2#8]) := by
  rcases writeRequest_cases addr v p s sl with ⟨_, h⟩ | ⟨hin, _⟩
  · exact exec_answered_of_error hs (hi.trans h)
  · exact absurd hin hb

/-- A write inside its bank is completed (R54, R170). -/
theorem write_of_inBank (hi : handlerOf i s sl = writeRequest addr v p s sl) (hnum : ∀ j : Nat, v.numbers[j]? = num j)
    (hm : Memory.wf s.cfg s.banks = true) (hs : Serves s u sl)
    (hb : InBank s.cfg sl v.kind addr.toNat v.length) :
    WriteCompletes s u sl addr.toNat v num (encodeResponse p) i := by
  rcases writeRequest_cases addr v p s sl with ⟨hout, _⟩ | ⟨_, h⟩
  · exact absurd hb hout
  · refine ⟨_, modify_wf hm hb, fun sl' k j => ?_, exec_of_handlerOf_ok hs (hi.trans h)⟩
    rw [← hnum]
    exact element_of_modify hm hb rfl sl' k j

/-- A single write in full (R171, R172): 02 for an address outside the bank, else its one element written. -/
theorem singleWrite_in_full (hi : handlerOf i s sl = writeRequest addr v p s sl) (hv : v.numbers = [w])
    (hraised : i.fc ||| 0x80#8 = raised) (hpdu : encodeResponse p = pdu) (hm : Memory.wf s.cfg s.banks = true)
    (hs : Serves s u sl) :
    (¬ InBank s.cfg sl v.kind addr.toNat 1 → exec i s = .next (s.answered u [raised, 2#8])) ∧
    (InBank s.cfg sl v.kind addr.toNat 1 →
      ∃ m : Memory, Memory.wf s.cfg m = true ∧
        (∀ sl' k j, { s with banks := m }.element sl' k j =
          if sl' = sl ∧ k = v.kind ∧ j = addr.toNat then some w else s.element sl' k j) ∧
        exec i s = .next (State.answered
          { s with banks := m, outputs := s.outputs ++ [.obs .write sl v.kind addr.toNat 1 v] } u pdu)) := by
  have hlen : v.length = 1 := by rw [← numbers_length, hv]; rfl
  subst hraised hpdu
  refine ⟨fun hb => write_of_not_inBank hi hs (hlen ▸ hb), fun hb => ?_⟩
  obtain ⟨m, hwf, helem, hexec⟩ := write_of_inBank hi (fun _ => rfl) hm hs (hlen ▸ hb)
  rw [hlen] at hexec
  refine ⟨m, hwf, fun sl' k j => (helem sl' k j).trans ?_, hexec⟩
  have hrange : addr.toNat ≤ j ∧ j < addr.toNat + v.length ↔ j = addr.toNat := by omega
  refine ite_congr (by rw [hrange]) (fun ⟨_, _, hj⟩ => ?_) fun _ => rfl
  simp [hv, hj]

/-- A multiple write in full (R173, R174): 03 for a quantity out of range, 02 for a range outside the bank, else the range
written. -/
theorem batchWrite_in_full (hi : handlerOf i s sl = batchWriteRequest limit addr v p s sl)
    (hnum : ∀ j : Nat, v.numbers[j]? = num j) (hraised : i.fc ||| 0x80#8 = raised) (hpdu : encodeResponse p = pdu)
    (hm : Memory.wf s.cfg s.banks = true) (hs : Serves s u sl) :
    (v.length = 0 ∨ limit < v.length → exec i s = .next (s.answered u [raised, 3#8])) ∧
    (1 ≤ v.length → v.length ≤ limit → ¬ InBank s.cfg sl v.kind addr.toNat v.length →
      exec i s = .next (s.answered u [raised, 2#8])) ∧
    (1 ≤ v.length → v.length ≤ limit → InBank s.cfg sl v.kind addr.toNat v.length →
      WriteCompletes s u sl addr.toNat v num pdu i) := by
  subst hraised hpdu
  rcases batchWriteRequest_cases limit addr v p s sl with ⟨hq, h⟩ | ⟨hq, h⟩ <;> rw [← hi] at h
  · exact ⟨fun _ => exec_answered_of_error hs h, fun hmin hmax => absurd ⟨hmin, hmax⟩ hq,
      fun hmin hmax => absurd ⟨hmin, hmax⟩ hq⟩
  · exact ⟨fun hn => by omega, fun _ _ => write_of_not_inBank h hs, fun _ _ => write_of_inBank h hnum hm hs⟩

end Writes

section Lengths

variable {byteCount : Nat → Nat} {fc : Byte} {payload : List Byte}

theorem not_batchLength_of_length_lt (h : payload.length < 5) : ¬ BatchLength byteCount (fc :: payload) := by
  rintro ⟨hlen, _⟩
  rw [List.length_cons] at hlen
  omega

/-- A byte count that is not the one the quantity calls for, or not the number of data bytes (R78). -/
theorem not_batchLength_of_byteCount_ne {a1 a2 q1 q2 bc : Byte} {d : List Byte}
    (h : bc.toNat ≠ byteCount (be16 q1 q2).toNat ∨ d.length ≠ bc.toNat) :
    ¬ BatchLength byteCount (fc :: a1 :: a2 :: q1 :: q2 :: bc :: d) := by
  have hq : rawField (fc :: a1 :: a2 :: q1 :: q2 :: bc :: d) 3 = (be16 q1 q2).toNat := (be16_toNat q1 q2).symm
  rintro ⟨_, hbc, hlen⟩
  rw [hq] at hbc
  rcases h with h | h
  · exact h hbc
  · have hd : d.length + 6 = 6 + bc.toNat := hlen
    omega

theorem decode_wrmco_of_not_batchLength (h : ¬ BatchLength ceil8 (0x0F#8 :: payload)) :
    decode (0x0F#8 :: payload) = .error .illegalDataValue := by
  obtain ⟨_, _, hcoils, _⟩ := wrongPduLengthIsIllegalValue
  exact (hcoils _ rfl).2 h

theorem decode_wrmhr_of_not_batchLength (h : ¬ BatchLength (2 * ·) (0x10#8 :: payload)) :
    decode (0x10#8 :: payload) = .error .illegalDataValue := by
  obtain ⟨_, _, _, hregs, _⟩ := wrongPduLengthIsIllegalValue
  exact (hregs _ rfl).2 h

end Lengths

/-- Settles O31: the write of one coil, the length of a single write, and the two legal coil values. -/
theorem wrcoWritesOneCoil : Obligations.WrcoWritesOneCoil := by
  refine ⟨fun _ _ _ addr bit =>
      singleWrite_in_full (i := .wrco addr bit) (v := .co [bit]) rfl rfl (by simp [Instr.fc]) rfl,
    fun _ => decode_of_length_ne (by decide), fun a1 a2 v1 v2 hon hoff => ?_⟩
  rw [coilValueHasTwoEncodings.1, if_neg hon, if_neg hoff]

/-- Settles O32: the write of one register, and the length of a single write. -/
theorem wrhrWritesOneRegister : Obligations.WrhrWritesOneRegister :=
  ⟨fun _ _ _ addr val => singleWrite_in_full (i := .wrhr addr val) (v := .hr [val]) rfl rfl (by simp [Instr.fc]) rfl,
    fun _ => decode_of_length_ne (by decide)⟩

/-- Settles O33: the multiple write at the coils, and the lengths of its format. -/
theorem wrmcoWritesCoils : Obligations.WrmcoWritesCoils :=
  ⟨fun _ _ _ addr v => batchWrite_in_full (i := .wrmco addr v) (v := .co v) (num := fun j => v[j]?.map bitWord)
      rfl (fun _ => List.getElem?_map ..) (by simp [Instr.fc]) rfl,
    fun _ h => decode_wrmco_of_not_batchLength (not_batchLength_of_length_lt h),
    fun _ _ _ _ _ _ h => decode_wrmco_of_not_batchLength (not_batchLength_of_byteCount_ne h)⟩

/-- Settles O34: the multiple write at the holding registers, and the lengths of its format. -/
theorem wrmhrWritesRegisters : Obligations.WrmhrWritesRegisters :=
  ⟨fun _ _ _ addr v => batchWrite_in_full (i := .wrmhr addr v) (v := .hr v) (num := fun j => v[j]?)
      rfl (fun _ => rfl) (by simp [Instr.fc]) rfl,
    fun _ h => decode_wrmhr_of_not_batchLength (not_batchLength_of_length_lt h),
    fun _ _ _ _ _ _ h => decode_wrmhr_of_not_batchLength (not_batchLength_of_byteCount_ne h)⟩

end Sys2Proof.Machine
end

section
/-! PROOF. The host port in full (44_host_port.md R191 to R193): a host access answers what the access primitive of its
bank answers (20_memory.md R53, R54), in every phase. -/

namespace Sys2Proof.Machine

section HostAnswers

variable {s : State} {sl addr n : Nat} {k : Kind} {v : BankValues}

/-- What `MemRead` reads is what the host is answered (R191). -/
theorem hostRead_of_memRead_ok (hs : sl < s.cfg.nslaves) (h : memRead s sl k addr n = .ok v) :
    hostRead sl k addr n s = .next (emit (.hostResult (.values v)) s) := by
  simp [hostRead, hs, h]

/-- A host read outside the bank is answered `AddressingFault` (R191). -/
theorem hostRead_of_not_inBank (hs : sl < s.cfg.nslaves) (h : ¬ InBank s.cfg sl k addr n) :
    hostRead sl k addr n s = .next (emit (.hostResult .addressingFault) s) := by
  simp [hostRead, hs, memRead_of_not_inBank h]

/-- A host write outside the bank writes nothing and is answered `AddressingFault` (R192). -/
theorem hostWrite_of_not_inBank (hs : sl < s.cfg.nslaves) (h : ¬ InBank s.cfg sl v.kind addr v.length) :
    hostWrite sl addr v s = .next (emit (.hostResult .addressingFault) s) := by
  simp [hostWrite, hs, memWrite_of_not_inBank h]

end HostAnswers

/-- Settles O43: the answer is that of `MemRead`, whose elements are those addressed. -/
theorem hostReadAnswers : Obligations.HostReadAnswers := by
  intro s sl k addr count rest hm hn hs
  rw [step_of_next hn]
  refine ⟨fun hout => hostRead_of_not_inBank (s := { s with inputs := rest }) hs hout, fun hin => ?_⟩
  obtain ⟨_, hread, _⟩ := accessPrimitives { s with inputs := rest } sl addr hm
  obtain ⟨v, hv, hkind, hlength, helements⟩ := hread k count hin
  exact ⟨v, hkind, hlength, helements, hostRead_of_memRead_ok hs hv⟩

/-- Settles O44: inside the bank exactly the addressed range changes, outside nothing does. -/
theorem hostWriteWritesAllOrNothing : Obligations.HostWriteWritesAllOrNothing := by
  intro s sl addr v rest hm hn hs
  rw [step_of_next hn]
  exact ⟨fun hout => hostWrite_of_not_inBank (s := { s with inputs := rest }) hs hout, fun hin =>
    ⟨_, modify_wf hm hin, element_of_modify hm hin rfl, hostWrite_of_inBank (s := { s with inputs := rest }) hin⟩⟩

end Sys2Proof.Machine
end

section
/-! PROOF. The events of one clock cycle (60_exceptions.md R210), a list taken apart rank by rank, and a step with no
event (R217). -/

namespace Sys2Proof.Machine

section FilterByKey

variable {α : Type} {key : α → Nat} {ranks : List Nat}

/-- Taking a list apart by distinct ranks keeps each element whose key is among them, once. -/
theorem flatMap_filter_key_perm (hnodup : ranks.Nodup) (l : List α) :
    (ranks.flatMap fun r => l.filter fun a => key a == r).Perm (l.filter fun a => decide (key a ∈ ranks)) := by
  induction ranks with
  | nil => simp
  | cons r rs ih =>
    obtain ⟨hr, hrs⟩ := List.nodup_cons.mp hnodup
    have head_part : l.filter (fun a => key a == r) =
        (l.filter fun a => decide (key a ∈ r :: rs)).filter (fun a => key a == r) := by
      rw [List.filter_filter]
      exact List.filter_congr fun a _ => by simp +contextual
    have tail_part : l.filter (fun a => decide (key a ∈ rs)) =
        (l.filter fun a => decide (key a ∈ r :: rs)).filter (fun a => !(key a == r)) := by
      rw [List.filter_filter]
      refine List.filter_congr fun a _ => ?_
      by_cases h : key a = r <;> simp [h, hr]
    rw [List.flatMap_cons]
    refine ((ih hrs).append_left _).trans ?_
    rw [head_part, tail_part]
    exact List.filter_append_perm ..

/-- Taking a list apart by ascending ranks leaves the keys in ascending order. -/
theorem pairwise_flatMap_filter_key (hranks : ranks.Pairwise (· ≤ ·)) (l : List α) :
    (ranks.flatMap fun r => l.filter fun a => key a == r).Pairwise (fun a b => key a ≤ key b) := by
  have key_eq {r : Nat} {a : α} (h : a ∈ l.filter fun a => key a == r) : key a = r := by
    simpa using List.of_mem_filter h
  refine List.pairwise_flatMap.mpr ⟨fun r _ => ?_, hranks.imp fun hle a ha b hb => ?_⟩
  · exact List.pairwise_of_forall_mem_list fun a ha b hb => by rw [key_eq ha, key_eq hb]
  · rwa [key_eq ha, key_eq hb]

end FilterByKey

/-- Every event has its place among the six. -/
theorem cycleRank_mem (e : Input) : e.cycleRank ∈ [0, 1, 2, 3, 4, 5] := by
  cases e <;> simp [Input.cycleRank]

theorem cycleOrder_perm (es : List Input) : (cycleOrder es).Perm es := by
  have h := flatMap_filter_key_perm (key := Input.cycleRank) (ranks := [0, 1, 2, 3, 4, 5]) (by decide) es
  rwa [List.filter_eq_self.mpr fun e _ => decide_eq_true (cycleRank_mem e)] at h

theorem cycleOrder_pairwise (es : List Input) :
    (cycleOrder es).Pairwise (fun a b => a.cycleRank ≤ b.cycleRank) :=
  pairwise_flatMap_filter_key (by decide) es

/-- Settles O58: the ranks are distinct and ascending, and every event has one of them. -/
theorem cycleEventsKeepTheFixedOrder : Obligations.CycleEventsKeepTheFixedOrder := fun es =>
  ⟨fun _ => rfl, cycleOrder_perm es, cycleOrder_pairwise es, fun _ _ _ _ _ _ _ _ => rfl⟩

/-- Settles O57: with no event scheduled there is nothing to react to. -/
theorem nothingHappensWithoutAnEvent : Obligations.NothingHappensWithoutAnEvent := fun _ => step_of_no_event

end Sys2Proof.Machine
end

section
/-! PROOF. The reset event (70_reset_and_hazards.md R230, R231). -/

namespace Sys2Proof.Machine

/-- `Reset` puts every field of the block at its value under `init(CFG)`; the events still scheduled and the record of
outputs are not the block's (R37, R230). -/
theorem resetBlock_eq_init (s : State) :
    resetBlock s = { State.init s.cfg with inputs := s.inputs, outputs := s.outputs } := rfl

/-- No phase delays or changes the reset (R231). -/
theorem step_reset {s : State} {rest : List Input} (hn : NextEvent s .reset rest) :
    step s = .next { State.init s.cfg with inputs := rest, outputs := s.outputs } := by
  rw [step_of_next hn, react, resetBlock_eq_init]

/-- Settles O47: what a reset leaves is read from the configuration, the events still scheduled and the record of
outputs alone, so two states that agree on the first two agree after it but for the third. -/
theorem resetRestoresInitialState : Obligations.ResetRestoresInitialState := by
  refine ⟨fun s rest => step_reset, fun s s' t t' rest hcfg hn hn' h h' => ?_⟩
  rw [step_reset hn] at h
  rw [step_reset hn', ← hcfg] at h'
  cases h
  cases h'
  rfl

end Sys2Proof.Machine
end
